-- ==== Sys2Proof/Word.lean ====
section
/-! DEFINITION. The two word types of the core: the 8-bit byte of registers, memory cells and immediates,
and the 9-bit program counter (spec/00_scope.md R5, R6). -/

namespace Sys2Proof

/-- An unsigned 8-bit value, 0 to 255: a register, a memory cell, an immediate, an output value (R6, R11). -/
abbrev Byte := BitVec 8

/-- A 9-bit value: the program counter, wide enough for 256, one past the last address (R13), and `fault_info` (R18). -/
abbrev PcWord := BitVec 9

end Sys2Proof
end

