-- ==== Sys2Proof/Config.lean ====
section
/-! DEFINITION. The fixed parameters of the core (spec/00_scope.md R5). None is free: the spec gives each its value, and
no behaviour of this hardware is left as any value (spec/93_implementation_defined.md), so this file holds no opaque constant. -/

namespace Sys2Proof

/-- `SP_INDEX`: the register the four stack instructions use. -/
abbrev Config.spIndex : Fin 8 := 7

/-- `SP_RESET`: register 7 after reset, 244. -/
abbrev Config.spReset : Byte := 0xF4

/-- `MEM_SIZE`: the number of memory cells. -/
abbrev Config.memSize : Nat := 256

/-- The last address, 255: an access above it is AddressOutOfRange (R32). -/
abbrev Config.lastAddress : Nat := 255

/-- `PC_RESET`: the reset vector is the constant 0 (R116). -/
abbrev Config.pcReset : PcWord := 0

/-- What a memory cell holds after reset, and so what an address the memory list does not name reads as (R23). -/
abbrev Config.resetCell : Byte := 0

end Sys2Proof
end

