-- ==== Sys2Proof/Machine/State.lean ====
section
/-! DEFINITION. The state of the core, all of it, as plain data (spec/10_state.md R10 to R25), its value after reset
(R23), and the two reason types of a step. -/

namespace Sys2Proof.Machine

/-- The memory `M`: the cells that do not hold their reset value 0, as (address, byte) pairs, addresses rising. An address
that is not listed reads as `Config.resetCell`, the reset contents the spec gives (R21, R23). -/
abbrev Memory := List Host.Cell

/-- The state of the fetch-execute loop (R17). -/
inductive RunState where
  /-- Steps are taken. -/
  | running
  /-- A HLT was executed; terminal. -/
  | halted
  /-- A fault was raised; terminal. The fault record says which. -/
  | faulted
deriving DecidableEq, Repr

/-- The values of `fault_cause` (R18, R101); `FaultCause.code` (Machine/Ops.lean) gives their 2-bit codes. -/
inductive FaultCause where
  /-- Code 0, the reset value: no fault has occurred. -/
  | none
  /-- Code 1: the byte at `pc` is not one of the 13 opcodes. -/
  | illegalInstruction
  /-- Code 2: a register operand byte is greater than 7. -/
  | registerIndexOutOfRange
  /-- Code 3: an address the step needs is greater than 255. -/
  | addressOutOfRange
deriving DecidableEq, Repr

/-- The reasons for which a step of the MODEL stops without a next state. There are none. A fault of the spec is not an
outcome of this kind: raising it is a next state, with `run` FAULTED and the fault record written (R104), and
`Step()` is total (R66). See the assumption log, entry 7. -/
inductive Fault where
deriving DecidableEq, Repr

/-- The reasons for which an instruction has no meaning. -/
inductive Refusal where
  /-- Raised by an arm of `exec` whose instruction has no meaning yet; safe. No arm of this model raises it. -/
  | notModelled (mnemonic : String)
deriving DecidableEq, Repr

/-- The state of the core: one record owned by one engine (R10). -/
structure State where
  /-- The register file, `x[0]` to `x[7]`; `x[7]` is the stack pointer (R11, R12). -/
  x : Vector Byte 8
  /-- The program counter, 9 bits (R13). -/
  pc : PcWord
  /-- The comparison flag (R15). -/
  fl : Bool
  /-- The memory (R21). -/
  mem : Memory
  /-- The run state (R17). -/
  run : RunState
  /-- The fault record's cause (R18). -/
  faultCause : FaultCause
  /-- The fault record's offending address, index or opcode byte (R18). -/
  faultInfo : PcWord
  /-- The output sequence, oldest value first (R20). -/
  out : List Byte
deriving DecidableEq, Repr

/-- What one step answers. -/
abbrev Result := Host.Outcome State Fault Refusal

/-- The state right after reset, before the loader acts: the table of R23. -/
def State.reset : State where
  x := #v[0, 0, 0, 0, 0, 0, 0, Config.spReset]
  pc := Config.pcReset
  fl := false
  mem := []
  run := .running
  faultCause := .none
  faultInfo := 0
  out := []

end Sys2Proof.Machine
end

