-- ==== Sys2Proof/Machine/Ops.lean ====
section
/-! DEFINITION. The named operations over memory, registers, program counter, stack, output and run state, and raising a
fault, which is the core's one way of taking an exception (spec/20_memory.md, spec/43_stack.md R85,
spec/60_exceptions.md R104). There is no return from a fault: only reset leaves FAULTED (R105), so no operation stands
beside `State.raise` to undo it. -/

namespace Sys2Proof.Machine

/-! ### Memory -/

/-- The canonical form of a memory: addresses strictly rising, all inside the 256 cells, and no entry equal to what an
unlisted address reads as. Equal contents are then equal lists. -/
abbrev Memory.wf (m : Memory) : Prop :=
  m.Pairwise (fun c d => c.1 < d.1) ∧ ∀ c ∈ m, c.1 < Config.memSize ∧ c.2 ≠ Config.resetCell

/-- `MemRead(addr, 1)`: the byte at an address; a read changes nothing (R30). Callers check that the address is at
most 255 first (R32). -/
def Memory.read : Memory → Nat → Byte
  | [], _ => Config.resetCell
  | (k, w) :: m, addr => if k = addr then w else Memory.read m addr

/-- A cell put in front of a memory, unless it holds what an unlisted address reads as. -/
def Memory.consCell (addr : Nat) (v : Byte) (m : Memory) : Memory :=
  if v = Config.resetCell then m else (addr, v) :: m

/-- `MemWrite(addr, 1, v)`: sets one cell and no other (R31); keeps the canonical form. -/
def Memory.write : Memory → Nat → Byte → Memory
  | [], addr, v => Memory.consCell addr v []
  | (k, w) :: m, addr, v =>
    if addr < k then Memory.consCell addr v ((k, w) :: m)
    else if addr = k then Memory.consCell addr v m
    else (k, w) :: Memory.write m addr v

/-- Writes a list of bytes at rising addresses; a byte whose address would lie above 255 has no cell and is not written.
Used by the loader (R24) and by `State.withFetchWord`. -/
def Memory.load (m : Memory) (addr : Nat) : List Byte → Memory
  | [] => m
  | b :: bs => Memory.load (if addr ≤ Config.lastAddress then m.write addr b else m) (addr + 1) bs

/-- `MemRead` on the state. -/
def State.memRead (s : State) (addr : Nat) : Byte := s.mem.read addr

/-- `MemWrite` on the state. -/
def State.memWrite (s : State) (addr : Nat) (v : Byte) : State := { s with mem := s.mem.write addr v }

/-! ### Registers and program counter -/

/-- `x[r]` (R11). No register is hardwired. -/
def State.reg (s : State) (r : Fin 8) : Byte := s.x[r]

/-- `x[r] <- v` (R11). -/
def State.setReg (s : State) (r : Fin 8) (v : Byte) : State := { s with x := s.x.set r v }

/-- `pc <- pc + n`, in 9 bits (R14). -/
def State.advance (s : State) (n : Nat) : State := { s with pc := s.pc + BitVec.ofNat 9 n }

/-- `pc <- zext_9(t)`: every jump, call and return target is an absolute 8-bit address, never checked (R96). -/
def State.jump (s : State) (t : Byte) : State := { s with pc := t.setWidth 9 }

/-! ### The stack: `x[7]` and only `x[7]` (R85) -/

/-- `x[7]` as an address; the content of an 8-bit register, so never out of range (R42). -/
def State.stackAddr (s : State) : Nat := (s.reg Config.spIndex).toNat

/-- `x[7] <- (x[7] - 1) mod 256` (R42). -/
def State.decSp (s : State) : State := s.setReg Config.spIndex (s.reg Config.spIndex - 1)

/-- `x[7] <- (x[7] + 1) mod 256` (R42). -/
def State.incSp (s : State) : State := s.setReg Config.spIndex (s.reg Config.spIndex + 1)

/-- `MemWrite(x[7], 1, v)`. -/
def State.storeTop (s : State) (v : Byte) : State := s.memWrite s.stackAddr v

/-- `MemRead(x[7], 1)`. -/
def State.loadTop (s : State) : Byte := s.memRead s.stackAddr

/-! ### Output and run state -/

/-- `out <- out ++ [v]`: one output event (R20, R82). -/
def State.emit (s : State) (v : Byte) : State := { s with out := s.out ++ [v] }

/-- `run <- HALTED` (R95). -/
def State.halt (s : State) : State := { s with run := .halted }

/-! ### Raising a fault -/

/-- A fault with its offending value, as the spec's pseudocode raises it: `raise F(info)` (R101). -/
inductive Trap where
  /-- `IllegalInstruction(op)`. -/
  | illegalInstruction (op : Byte)
  /-- `RegisterIndexOutOfRange(b)`. -/
  | registerIndexOutOfRange (b : Byte)
  /-- `AddressOutOfRange(addr)`, the address as a mathematical sum (R62). -/
  | addressOutOfRange (addr : Nat)
deriving DecidableEq, Repr

/-- The cause a fault records. -/
def Trap.cause : Trap → FaultCause
  | .illegalInstruction _ => .illegalInstruction
  | .registerIndexOutOfRange _ => .registerIndexOutOfRange
  | .addressOutOfRange _ => .addressOutOfRange

/-- The 9-bit value a fault records (R101). -/
def Trap.info : Trap → PcWord
  | .illegalInstruction op => op.setWidth 9
  | .registerIndexOutOfRange b => b.setWidth 9
  | .addressOutOfRange addr => BitVec.ofNat 9 addr

/-- The 2-bit code of a cause (R18, R101). -/
def FaultCause.code : FaultCause → BitVec 2
  | .none => 0
  | .illegalInstruction => 1
  | .registerIndexOutOfRange => 2
  | .addressOutOfRange => 3

/-- `raise F(info)`: the fault record is written and the core stops; memory, registers, `pc`, `fl` and `out` keep the values
they had when the step began (R104). -/
def State.raise (s : State) (t : Trap) : State :=
  { s with run := .faulted, faultCause := t.cause, faultInfo := t.info }

end Sys2Proof.Machine
end

