-- ==== Sys2Proof/Machine/Flags.lean ====
section
/-! DEFINITION. The one flag: what CMP computes and stores, and the two conditions that read it
(spec/10_state.md R15). There is no carry, zero, sign, overflow, less or greater flag. -/

namespace Sys2Proof.Machine

/-- The flag value of a comparison: 1 exactly when the two 8-bit patterns are equal (R72, R77). -/
def equalFlag (u v : Byte) : Bool := u == v

/-- `fl <- f`. -/
def State.setFlag (s : State) (f : Bool) : State := { s with fl := f }

/-- JEQ's condition (R93). -/
def State.condEqual (s : State) : Bool := s.fl

/-- JNE's condition (R94). -/
def State.condNotEqual (s : State) : Bool := !s.fl

end Sys2Proof.Machine
end

