-- ==== Sys2Proof/Machine/Operands.lean ====
section
/-! DEFINITION. Operands: fetching the instruction's bytes and turning an operand byte into a register index
(spec/40_step_cycle.md R61 to R64). -/

namespace Sys2Proof.Machine

/-- An instruction byte at an address: AddressOutOfRange when the address is above 255, which is never wrapped (R32). -/
def fetchByte (s : State) (addr : Nat) : Except Trap Byte :=
  if Config.lastAddress < addr then .error (.addressOutOfRange addr) else .ok (s.memRead addr)

/-- The opcode byte, at `pc` (R61). -/
def fetchOpcode (s : State) : Except Trap Byte := fetchByte s s.pc.toNat

/-- `FetchOperand(k)`: operand byte `k` of the instruction at `pc`, at the mathematical sum `pc + k` (R62). -/
def fetchOperand (s : State) (k : Nat) : Except Trap Byte := fetchByte s (s.pc.toNat + k)

/-- `RegIndex(b)`: the register a byte names, all eight bits counted and never masked (R48, R63). -/
def regIndex (b : Byte) : Except Trap (Fin 8) :=
  if h : b.toNat ≤ 7 then .ok ⟨b.toNat, Nat.lt_succ_of_le h⟩ else .error (.registerIndexOutOfRange b)

/-- An instruction with one register operand: `RegIndex`, then the effect; on a bad index the fault and nothing else. -/
def withReg (a : Byte) (s : State) (effect : Fin 8 → Result) : Result :=
  match regIndex a with
  | .error t => .next (s.raise t)
  | .ok r => effect r

/-- An instruction with two register operands: operand `a` is checked before operand `b` (R64). -/
def withRegs (a b : Byte) (s : State) (effect : Fin 8 → Fin 8 → Result) : Result :=
  withReg a s fun ra => withReg b s fun rb => effect ra rb

end Sys2Proof.Machine
end

