-- ==== Sys2Proof/Machine/Alu.lean ====
section
/-! DEFINITION. The ALU as a unit of its own, with its four operations, and the three instructions that reach it: ADD, MUL, CMP
(spec/41_alu.md R70 to R78). -/

namespace Sys2Proof.Machine

/-- The closed set of ALU operations (R74). No opcode dispatches to `sub` (R73). -/
inductive AluOp where
  | add
  | sub
  | mul
  | cmp
deriving DecidableEq, Repr

/-- `ALU(op, a, b)`: reads `x[a]` and `x[b]`, both before it writes, then writes `x[a]` or the flag and nothing else
(R70, R72, R73). Results keep their low 8 bits; overflow is silent (R71). -/
def alu (op : AluOp) (a b : Fin 8) (s : State) : State :=
  match op with
  | .add => s.setReg a (s.reg a + s.reg b)
  | .sub => s.setReg a (s.reg a - s.reg b)
  | .mul => s.setReg a (s.reg a * s.reg b)
  | .cmp => s.setFlag (equalFlag (s.reg a) (s.reg b))

/-- ADD (R75). -/
def execAdd (a b : Byte) (s : State) : Result :=
  withRegs a b s fun ra rb => .next ((alu .add ra rb s).advance 3)

/-- MUL (R76). -/
def execMul (a b : Byte) (s : State) : Result :=
  withRegs a b s fun ra rb => .next ((alu .mul ra rb s).advance 3)

/-- CMP (R77). -/
def execCmp (a b : Byte) (s : State) : Result :=
  withRegs a b s fun ra rb => .next ((alu .cmp ra rb s).advance 3)

end Sys2Proof.Machine
end

