-- ==== Sys2Proof/Machine/Control.lean ====
section
/-! DEFINITION. CALL, RET, JMP, JEQ, JNE and HLT (spec/44_control.md R90 to R98). Each sets `pc` itself; there is no common
increment after dispatch (spec/40_step_cycle.md R65). -/

namespace Sys2Proof.Machine

/-- CALL: the return address `pc + 2` is checked after the register index and before any write; it is pushed as one
byte; the target is read after the decrement (R90). -/
def execCall (a : Byte) (s : State) : Result :=
  withReg a s fun ra =>
    if Config.lastAddress < s.pc.toNat + 2 then .next (s.raise (.addressOutOfRange (s.pc.toNat + 2)))
    else .next ((s.decSp.storeTop (BitVec.ofNat 8 (s.pc.toNat + 2))).jump (s.decSp.reg ra))

/-- RET: read at the stack pointer, increment, jump (R91). -/
def execRet (s : State) : Result := .next (s.incSp.jump s.loadTop)

/-- JMP (R92). -/
def execJmp (a : Byte) (s : State) : Result :=
  withReg a s fun ra => .next (s.jump (s.reg ra))

/-- A conditional jump: to the register when the condition holds, else past its two bytes. The operand was fetched and is
checked either way (R93, R94). -/
def branchIf (cond : Bool) (ra : Fin 8) (s : State) : State :=
  if cond then s.jump (s.reg ra) else s.advance 2

/-- JEQ (R93). -/
def execJeq (a : Byte) (s : State) : Result :=
  withReg a s fun ra => .next (branchIf s.condEqual ra s)

/-- JNE (R94). -/
def execJne (a : Byte) (s : State) : Result :=
  withReg a s fun ra => .next (branchIf s.condNotEqual ra s)

/-- HLT: `pc` moves past the instruction and the loop stops (R95). -/
def execHlt (s : State) : Result := .next (s.advance 1).halt

end Sys2Proof.Machine
end

