-- ==== Sys2Proof/Machine/LoadPrint.lean ====
section
/-! DEFINITION. LDI and PRN, and the text of the output sequence (spec/42_load_print.md R80 to R83, spec/10_state.md R20). -/

namespace Sys2Proof.Machine

/-- LDI: all 8 bits of the immediate, unchanged and never checked (R81). -/
def execLdi (a imm : Byte) (s : State) : Result :=
  withReg a s fun ra => .next ((s.setReg ra imm).advance 3)

/-- PRN: one output event, the register's 8-bit value (R82). -/
def execPrn (a : Byte) (s : State) : Result :=
  withReg a s fun ra => .next ((s.emit (s.reg ra)).advance 2)

/-- The decimal digit 0 to 9 as a character. -/
def digitChar (d : Nat) : Char := Char.ofNat (48 + d)

/-- The decimal digits of a byte, unsigned, with no leading zeros, sign or padding; `0` for 0 (R20). -/
def decimalText (v : Byte) : List Char :=
  (if 100 ≤ v.toNat then [digitChar (v.toNat / 100)] else []) ++
  (if 10 ≤ v.toNat then [digitChar (v.toNat / 10 % 10)] else []) ++
  [digitChar (v.toNat % 10)]

/-- The text of an output sequence: for each value, its digits and one line feed (R20, R83). -/
def outText : List Byte → List Char
  | [] => []
  | v :: vs => decimalText v ++ '\n' :: outText vs

end Sys2Proof.Machine
end

