-- ==== Sys2Proof/Machine/Stack.lean ====
section
/-! DEFINITION. PUSH and POP (spec/43_stack.md R85 to R87). The actions happen in the order of the pseudocode and each reads
the state the one before it left, which settles register 7 as an operand (R122, spec/92_eei_decisions.md D9). -/

namespace Sys2Proof.Machine

/-- PUSH: decrement, then write the register as it is after the decrement (R86). -/
def execPush (a : Byte) (s : State) : Result :=
  withReg a s fun ra => .next ((s.decSp.storeTop (s.decSp.reg ra)).advance 2)

/-- POP: read into the register, then increment the stack pointer as the write left it (R87). -/
def execPop (a : Byte) (s : State) : Result :=
  withReg a s fun ra => .next ((s.setReg ra s.loadTop).incSp.advance 2)

end Sys2Proof.Machine
end

