-- ==== Sys2Proof/Syntax.lean ====
section
/-! DEFINITION. The thirteen instructions as syntax, one constructor per row of the opcode table (spec/30_encoding.md R50). -/

namespace Sys2Proof

/-- An instruction with its operand BYTES. A register operand is a whole byte (R48): a byte above 7 is an operand the
fetch delivers and the instruction itself faults on (`RegIndex`, R63), so it has a place in the syntax. -/
inductive Instr where
  /-- LDI: load immediate (R81). -/
  | ldi (a imm : Byte)
  /-- PRN: print register (R82). -/
  | prn (a : Byte)
  /-- MUL: multiply, low 8 bits (R76). -/
  | mul (a b : Byte)
  /-- ADD: add modulo 256 (R75). -/
  | add (a b : Byte)
  /-- PUSH: push a register (R86). -/
  | push (a : Byte)
  /-- POP: pop into a register (R87). -/
  | pop (a : Byte)
  /-- CALL: push the return address and jump to a register (R90). -/
  | call (a : Byte)
  /-- RET: pop the program counter (R91). -/
  | ret
  /-- CMP: compare for equality (R77). -/
  | cmp (a b : Byte)
  /-- JMP: jump to a register (R92). -/
  | jmp (a : Byte)
  /-- JEQ: jump if the flag is set (R93). -/
  | jeq (a : Byte)
  /-- JNE: jump if the flag is clear (R94). -/
  | jne (a : Byte)
  /-- HLT: stop the loop (R95). -/
  | hlt
deriving DecidableEq, Repr

end Sys2Proof
end

