-- ==== Sys2Proof/WellFormed.lean ====
section
/-! DEFINITION. Well-formed instructions: every register operand byte names one of the eight registers
(spec/30_encoding.md R48). The LDI immediate is never checked (R49). -/

namespace Sys2Proof

/-- The operand byte names a register: it is 0 to 7, all eight bits counted (R48). -/
def namesRegister (b : Byte) : Bool := b.toNat ≤ 7

/-- Every register operand of the instruction is in range. -/
def Instr.wf : Instr → Bool
  | .ldi a _ => namesRegister a
  | .prn a => namesRegister a
  | .mul a b => namesRegister a && namesRegister b
  | .add a b => namesRegister a && namesRegister b
  | .push a => namesRegister a
  | .pop a => namesRegister a
  | .call a => namesRegister a
  | .ret => true
  | .cmp a b => namesRegister a && namesRegister b
  | .jmp a => namesRegister a
  | .jeq a => namesRegister a
  | .jne a => namesRegister a
  | .hlt => true

end Sys2Proof
end

