-- ==== Sys2Proof/Decode.lean ====
section
/-! DEFINITION. The opcode map, the decoder and the encoder (spec/30_encoding.md R45 to R53). The opcode map is written once,
as a table in the spec's order; the decoder is written once, over a source of operand bytes, and is used twice: on a list
of bytes (`decode`) and by the machine's instruction fetch (Machine/Fetch.lean). -/

namespace Sys2Proof

/-- The four instruction formats (R46): how many operand bytes follow the opcode, and the instruction they make. -/
inductive Format where
  /-- Length 1: the opcode alone. -/
  | z (make : Instr)
  /-- Length 2: one register operand. -/
  | r (make : Byte → Instr)
  /-- Length 3: two register operands. -/
  | rr (make : Byte → Byte → Instr)
  /-- Length 3: a register operand, then an immediate. -/
  | ri (make : Byte → Byte → Instr)

/-- One row of the opcode map. -/
structure OpcodeRow where
  /-- The whole opcode byte; there are no sub-fields (R45). -/
  opcode : Byte
  /-- The format the opcode alone selects (R47). -/
  format : Format

/-- The opcode map, in the spec's order, the patterns most significant bit first (R50). -/
def opcodeTable : List OpcodeRow :=
  [ ⟨0b10000010, .ri .ldi⟩,
    ⟨0b01000111, .r .prn⟩,
    ⟨0b10100010, .rr .mul⟩,
    ⟨0b10100000, .rr .add⟩,
    ⟨0b01000101, .r .push⟩,
    ⟨0b01000110, .r .pop⟩,
    ⟨0b01010000, .r .call⟩,
    ⟨0b00010001, .z .ret⟩,
    ⟨0b10100111, .rr .cmp⟩,
    ⟨0b01010100, .r .jmp⟩,
    ⟨0b01010101, .r .jeq⟩,
    ⟨0b01010110, .r .jne⟩,
    ⟨0b00000001, .z .hlt⟩ ]

/-- The format of an opcode byte; none for the 243 bytes outside the map (R47, R52). All 8 bits are compared (R61). -/
def formatOf (op : Byte) : Option Format :=
  (opcodeTable.find? fun row => row.opcode == op).map OpcodeRow.format

/-- THE decoder: the instruction of an opcode byte and of the operand bytes that `operand 1`, `operand 2` deliver. An
unknown opcode is rejected before any operand is asked for, then the operands are fetched in order (R61, R64). -/
def decodeWith {ε : Type} (illegal : Byte → ε) (operand : Nat → Except ε Byte) (op : Byte) : Except ε Instr :=
  match formatOf op with
  | none => .error (illegal op)
  | some (.z make) => .ok make
  | some (.r make) =>
    match operand 1 with
    | .error e => .error e
    | .ok a => .ok (make a)
  | some (.rr make) | some (.ri make) =>
    match operand 1 with
    | .error e => .error e
    | .ok a =>
      match operand 2 with
      | .error e => .error e
      | .ok b => .ok (make a b)

/-- Why a list of bytes is no instruction. -/
inductive DecodeError where
  /-- The list is empty: there is no opcode byte. -/
  | noOpcode
  /-- The first byte is not one of the 13 opcodes (R52). -/
  | illegalInstruction (op : Byte)
  /-- The list ends before operand byte `k`. -/
  | missingOperand (k : Nat)
deriving DecidableEq, Repr

/-- How many bytes the instruction takes, its opcode byte counted (R46). -/
def Instr.length : Instr → Nat
  | .ldi _ _ => 3
  | .prn _ => 2
  | .mul _ _ => 3
  | .add _ _ => 3
  | .push _ => 2
  | .pop _ => 2
  | .call _ => 2
  | .ret => 1
  | .cmp _ _ => 3
  | .jmp _ => 2
  | .jeq _ => 2
  | .jne _ => 2
  | .hlt => 1

/-- Operand byte `k` of an instruction whose bytes after the opcode are `rest`. -/
def operandOf (rest : List Byte) (k : Nat) : Except DecodeError Byte :=
  match rest[k - 1]? with
  | none => .error (.missingOperand k)
  | some b => .ok b

/-- Decode the instruction at the head of a list of bytes, and give the bytes after it. Total: what it cannot decode it
rejects by name. -/
def decode : List Byte → Except DecodeError (Instr × List Byte)
  | [] => .error .noOpcode
  | op :: rest =>
    match decodeWith .illegalInstruction (operandOf rest) op with
    | .error e => .error e
    | .ok i => .ok (i, rest.drop (i.length - 1))

/-- The bytes of an instruction in memory order, opcode first (R45, R46, R50). -/
def encode : Instr → List Byte
  | .ldi a imm => [0x82, a, imm]
  | .prn a => [0x47, a]
  | .mul a b => [0xA2, a, b]
  | .add a b => [0xA0, a, b]
  | .push a => [0x45, a]
  | .pop a => [0x46, a]
  | .call a => [0x50, a]
  | .ret => [0x11]
  | .cmp a b => [0xA7, a, b]
  | .jmp a => [0x54, a]
  | .jeq a => [0x55, a]
  | .jne a => [0x56, a]
  | .hlt => [0x01]

/-- The operand byte that names register `r` (R48). -/
def regByte (r : Fin 8) : Byte := BitVec.ofNat 8 r.val

/-- The three bytes, first at the lowest address, of an instruction word numbered as spec/opcode_table.json numbers its
bits: bit 0 is the least significant bit of the first byte, the second byte is bits 15..8. Bits from `nbits` up are 0. -/
def tableBytes (nbits w : Nat) : List Byte :=
  let v := w % 2 ^ nbits
  [BitVec.ofNat 8 v, BitVec.ofNat 8 (v / 2 ^ 8), BitVec.ofNat 8 (v / 2 ^ 16)]

/-- The instruction this decoder reads from an instruction word of the opcode table. -/
def decodeTableWord (nbits w : Nat) : Option Instr :=
  match decode (tableBytes nbits w) with
  | .ok (i, _) => some i
  | .error _ => none

end Sys2Proof
end

