-- ==== Sys2Proof/Machine/Fetch.lean ====
section
/-! DEFINITION. Fetching and decoding the instruction at `pc`: actions (1) and (2) of every step (spec/40_step_cycle.md R64).
Bytes come from the same memory as data, at the moment the step runs (spec/20_memory.md R40). -/

namespace Sys2Proof.Machine

/-- The instruction at `pc`, or the fault its fetch raises: the opcode address, then the opcode, then the operand addresses
in order (R61, R62, R64). -/
def fetchInstr (s : State) : Except Trap Instr :=
  match fetchOpcode s with
  | .error t => .error t
  | .ok op => decodeWith .illegalInstruction (fetchOperand s) op

end Sys2Proof.Machine
end

