-- ==== Sys2Proof/Machine/Step.lean ====
section
/-! DEFINITION. One step of the fetch-execute loop (spec/40_step_cycle.md R60, R61), and the placing of one instruction word
where the next step fetches it. -/

namespace Sys2Proof.Machine

/-- `Step()` of a running core: fetch and decode the instruction at `pc`, then execute it; a fault of the fetch is raised
(R61, R64). A core that is HALTED or FAULTED takes no step and keeps its state until reset (R17, R25); the model answers
that same state (assumption log, entry 1). -/
def step (s : State) : Host.Outcome State Fault Refusal :=
  match s.run with
  | .running =>
    match fetchInstr s with
    | .error t => .next (s.raise t)
    | .ok i => exec i s
  | .halted => .next s
  | .faulted => .next s

/-- The state with an instruction word of the opcode table stored at `pc` and after it, and the loop running, so that the
next step fetches and runs it. A byte whose address would lie above 255 has no cell. -/
def State.withFetchWord (s : State) (nbits w : Nat) : State :=
  { s with mem := s.mem.load s.pc.toNat (tableBytes nbits w), run := .running }

end Sys2Proof.Machine
end

