-- ==== Sys2Proof/Machine/Launch.lean ====
section
/-! DEFINITION. What the outside does before a run: reset, then the loader (spec/10_state.md R24, spec/70_reset_and_hazards.md
R115 to R118). -/

namespace Sys2Proof.Machine

/-- The reset event: whatever the state was, HALTED and FAULTED included, every piece of state takes its reset value and
nothing is preserved (R115). -/
def State.resetEvent (_ : State) : State := State.reset

/-- `Launch(image)`: the reset state with the image at addresses 0 to n-1. An image of more than 256 bytes is refused,
not truncated and not wrapped: no machine is launched (R24, R118). -/
def launch (image : List Byte) : Option State :=
  if image.length ≤ Config.memSize then some { State.reset with mem := Memory.load [] 0 image } else none

end Sys2Proof.Machine
end

