-- ==== Sys2Proof/Machine/Runner.lean ====
section
/-! DEFINITION. The fetch-execute loop under an optional step budget (spec/40_step_cycle.md R60, R67, R68). -/

namespace Sys2Proof.Machine

/-- How a run under a budget ends. Running out of budget is an outcome of the runner and no state of the machine: the state
reached is an ordinary RUNNING state (R68). -/
inductive RunResult where
  /-- The loop ended by HLT. -/
  | halted (s : State)
  /-- The loop ended by a fault. -/
  | faulted (s : State)
  /-- The budget is spent and the core is still RUNNING. -/
  | unfinished (s : State)
deriving DecidableEq, Repr

/-- `while run = RUNNING: Step()`, for at most `budget` steps. -/
def runLoop (budget : Nat) (s : State) : Host.Outcome RunResult Fault Refusal :=
  match s.run with
  | .halted => .next (.halted s)
  | .faulted => .next (.faulted s)
  | .running =>
    match budget with
    | 0 => .next (.unfinished s)
    | n + 1 =>
      match step s with
      | .next t => runLoop n t
      | .fault r => .fault r
      | .refused r => .refused r

end Sys2Proof.Machine
end

