-- ==== Sys2Proof/Safety.lean ====
section
/-! DEFINITION. The terms claims use: the invariant of the core, the states a run reaches, what a safe run is, and the
shapes of "what a step does" and "what is unchanged" that the statements share. -/

namespace Sys2Proof.Machine

/-! ### The opcode set and the state after a fault, written out from the spec -/

/-- The 13 opcodes, ascending (R50). -/
def opcodes : List Byte :=
  [0x01, 0x11, 0x45, 0x46, 0x47, 0x50, 0x54, 0x55, 0x56, 0x82, 0xA0, 0xA2, 0xA7]

/-- The state with only the run state and the fault record changed, as R104 says. -/
def State.faultedWith (s : State) (cause : FaultCause) (info : Nat) : State :=
  { s with run := .faulted, faultCause := cause, faultInfo := BitVec.ofNat 9 info }

/-- Operand byte `k` of the instruction at `pc`, as a number. -/
def State.operand (s : State) (k : Nat) : Nat := (s.memRead (s.pc.toNat + k)).toNat

/-- The register an operand byte names, for a byte that names one. -/
def State.regOf (s : State) (b : Byte) : Byte := s.reg (Fin.ofNat 8 b.toNat)

/-- The bytes of memory from `pc` to the last address, in ascending order. -/
def State.bytesAtPc (s : State) : List Byte :=
  (List.range (256 - s.pc.toNat)).map fun k => s.memRead (s.pc.toNat + k)

/-- The core is running and the opcode byte `op` stands at `pc`, inside the memory. -/
abbrev State.atOpcode (s : State) (op : Byte) : Prop :=
  s.run = .running ∧ s.pc.toNat ≤ 255 ∧ s.memRead s.pc.toNat = op

/-! ### The invariant -/

/-- The fault record names the instruction at `pc` and what was wrong with it (R101, R102). -/
def State.recordExplained (s : State) : Prop :=
  match s.faultCause with
  | .none => False
  | .illegalInstruction =>
    s.pc.toNat ≤ 255 ∧ s.memRead s.pc.toNat ∉ opcodes ∧ s.faultInfo = (s.memRead s.pc.toNat).setWidth 9
  | .registerIndexOutOfRange =>
    8 ≤ s.faultInfo.toNat ∧
      ((s.pc.toNat ≤ 254 ∧ s.faultInfo.toNat = s.operand 1) ∨ (s.pc.toNat ≤ 253 ∧ s.faultInfo.toNat = s.operand 2))
  | .addressOutOfRange => s.faultInfo.toNat = 256 ∧ 254 ≤ s.pc.toNat

/-- What every state of a run satisfies and every step keeps. -/
structure State.Inv (s : State) : Prop where
  /-- The memory is in canonical form. -/
  memCanonical : s.mem.wf
  /-- `0 <= pc <= 256` (R14). -/
  pcBound : s.pc.toNat ≤ 256
  /-- The fault record is clear unless a fault was raised (R18, R105). -/
  recordClear : s.run ≠ .faulted → s.faultCause = .none ∧ s.faultInfo = 0
  /-- After a fault the record is that of the instruction at `pc` (R101). -/
  recordSet : s.run = .faulted → s.recordExplained
  /-- After a halt `pc` is one past a HLT (R67, R95). -/
  haltedPastHlt : s.run = .halted → 1 ≤ s.pc.toNat ∧ s.memRead (s.pc.toNat - 1) = 0x01

/-! ### Runs -/

/-- The states of the runs of launched images (R117, R118). -/
inductive Reachable : State → Prop where
  | launched {image : List Byte} {s : State} : launch image = some s → Reachable s
  | stepped {s t : State} : Reachable s → step s = .next t → Reachable t

/-- A run is safe while no fault has been raised: it is not FAULTED. HALTED is a normal end and RUNNING may go on for
ever, which is legal (R67, R104). -/
def State.safe (s : State) : Prop := s.run ≠ .faulted

/-- The loop ends normally within a budget of steps. -/
def State.haltsWithin (s : State) (budget : Nat) : Prop := ∃ t, runLoop budget s = .next (.halted t)

/-! ### What is unchanged -/

/-- Every register but the listed ones keeps its value. -/
def State.keepsRegs (s t : State) (changed : List (Fin 8)) : Prop := ∀ r, r ∉ changed → t.reg r = s.reg r

/-- Every byte of memory keeps its value. -/
def State.keepsMem (s t : State) : Prop := ∀ addr, t.memRead addr = s.memRead addr

/-- Every byte of memory but the one at `stored` keeps its value. -/
def State.keepsMemBut (s t : State) (stored : Nat) : Prop := ∀ addr, addr ≠ stored → t.memRead addr = s.memRead addr

/-- The run state and the fault record keep their values. -/
def State.keepsStatus (s t : State) : Prop :=
  t.run = s.run ∧ t.faultCause = s.faultCause ∧ t.faultInfo = s.faultInfo

/-! ### What a step does with an instruction of each format, faults included, in the order of R64 -/

/-- Format R: the operand address, the register index, then the effect. -/
def State.stepsAsR (s : State) (effect : Fin 8 → State) : Prop :=
  (s.pc.toNat = 255 → step s = .next (s.faultedWith .addressOutOfRange 256)) ∧
  (s.pc.toNat ≤ 254 → 7 < s.operand 1 →
    step s = .next (s.faultedWith .registerIndexOutOfRange (s.operand 1))) ∧
  (∀ a : Fin 8, s.pc.toNat ≤ 254 → s.operand 1 = a.val → step s = .next (effect a))

/-- Format RR: both operand addresses, both register indices, then the effect. -/
def State.stepsAsRR (s : State) (effect : Fin 8 → Fin 8 → State) : Prop :=
  (254 ≤ s.pc.toNat → step s = .next (s.faultedWith .addressOutOfRange 256)) ∧
  (s.pc.toNat ≤ 253 → 7 < s.operand 1 →
    step s = .next (s.faultedWith .registerIndexOutOfRange (s.operand 1))) ∧
  (s.pc.toNat ≤ 253 → s.operand 1 ≤ 7 → 7 < s.operand 2 →
    step s = .next (s.faultedWith .registerIndexOutOfRange (s.operand 2))) ∧
  (∀ a b : Fin 8, s.pc.toNat ≤ 253 → s.operand 1 = a.val → s.operand 2 = b.val → step s = .next (effect a b))

/-- Format RI: both operand addresses, the register index, then the effect; the immediate is never checked. -/
def State.stepsAsRI (s : State) (effect : Fin 8 → Byte → State) : Prop :=
  (254 ≤ s.pc.toNat → step s = .next (s.faultedWith .addressOutOfRange 256)) ∧
  (s.pc.toNat ≤ 253 → 7 < s.operand 1 →
    step s = .next (s.faultedWith .registerIndexOutOfRange (s.operand 1))) ∧
  (∀ a : Fin 8, s.pc.toNat ≤ 253 → s.operand 1 = a.val →
    step s = .next (effect a (s.memRead (s.pc.toNat + 2))))

end Sys2Proof.Machine
end

