-- ==== Sys2Proof/Certificates/Slice0/Obligations.lean ====
section
/-! DEFINITION. The statements about the core, for the provers: what reset leaves, what the decoder reads, what a step and each
instruction do and leave unchanged, when a fault is raised and what it records, and the rules of the whole machine.
Where a clause rests on a decision the spec marks as its own (spec/92_eei_decisions.md) or on a log entry, the docstring says so. -/

open Sys2Proof Sys2Proof.Machine

/-! ### Reset and launch -/

/-- R23: every piece of state at its reset value; the program image then overwrites memory from address 0. -/
def Obligations.ResetValueOfEveryState : Prop :=
  (∀ r : Fin 8, State.reset.reg r = if r = 7 then 0xF4 else 0x00) ∧
  State.reset.pc = 0 ∧ State.reset.fl = false ∧
  (∀ addr, addr ≤ 255 → State.reset.memRead addr = 0x00) ∧
  State.reset.run = .running ∧ State.reset.faultCause = .none ∧ State.reset.faultCause.code = 0 ∧
  State.reset.faultInfo = 0 ∧ State.reset.out = [] ∧
  (∀ image s, launch image = some s → ∀ i (h : i < image.length), s.memRead i = image[i])

/-- Reset can occur in any state and preserves nothing, and a HALTED or FAULTED core keeps its whole state. Rests on the spec's
decision D15; that the model answers that state where the spec takes no step is its own choice, log entry 1. -/
def Obligations.OnlyResetLeavesAStoppedState : Prop :=
  (∀ s : State, s.resetEvent = State.reset) ∧
  (∀ s : State, s.run = .halted ∨ s.run = .faulted → step s = .next s)

/-- Launching puts the image at addresses 0 to n-1 over the reset state and nothing else; an image of more than 256 bytes
is refused; the empty image faults at its first step with IllegalInstruction(0x00). Rests on the spec's decision D13. -/
def Obligations.LaunchIsResetPlusImage : Prop :=
  (∀ image : List Byte, image.length ≤ 256 →
    ∃ s, launch image = some s ∧ s = { State.reset with mem := s.mem } ∧
      (∀ i (h : i < image.length), s.memRead i = image[i]) ∧
      (∀ i, image.length ≤ i → s.memRead i = 0x00)) ∧
  (∀ image : List Byte, 256 < image.length → launch image = none) ∧
  (∀ s, launch [] = some s → step s = .next (s.faultedWith .illegalInstruction 0x00))

/-! ### Encoding -/

/-- Words written out bit by bit from the opcode map (R50) decode to the instructions they stand for: one of each family. -/
def Obligations.SpecWordsDecodeToTheirInstructions : Prop :=
  decode [0b10000010, 0b00000000, 0b00001000] = .ok (.ldi 0 8, []) ∧
  decode [0b01000111, 0b00000111] = .ok (.prn 7, []) ∧
  decode [0b10100000, 0b00000001, 0b00000010] = .ok (.add 1 2, []) ∧
  decode [0b10100111, 0b00000010, 0b00000001] = .ok (.cmp 2 1, []) ∧
  decode [0b01000101, 0b00000011] = .ok (.push 3, []) ∧
  decode [0b01010000, 0b00000100] = .ok (.call 4, []) ∧
  decode [0b00010001] = .ok (.ret, []) ∧
  decode [0b00000001, 0b11111111] = .ok (.hlt, [0b11111111])

/-- Decoding and encoding are inverse, both ways, for every instruction and every operand byte: a list of bytes decodes to an
instruction and a rest exactly when it is that instruction's encoding followed by that rest. -/
def Obligations.DecodeIsExactlyTheInverseOfEncode : Prop :=
  ∀ (bytes : List Byte) (i : Instr) (rest : List Byte), decode bytes = .ok (i, rest) ↔ bytes = encode i ++ rest

/-- R52: every opcode byte outside the 13 is illegal, 243 of them, 0x00 and 0xFF among them; the step raises
IllegalInstruction(op) whatever the bytes after it are; the 13 do decode. -/
def Obligations.EveryOtherOpcodeIsIllegal : Prop :=
  (∀ op rest, op ∉ opcodes → decode (op :: rest) = .error (.illegalInstruction op)) ∧
  (∀ op a b, op ∈ opcodes → ∃ i rest, decode [op, a, b] = .ok (i, rest)) ∧
  ((List.range 256).filter fun n => BitVec.ofNat 8 n ∉ opcodes).length = 243 ∧
  (0x00 : Byte) ∉ opcodes ∧ (0xFF : Byte) ∉ opcodes ∧
  (∀ s : State, s.run = .running → s.pc.toNat ≤ 255 → s.memRead s.pc.toNat ∉ opcodes →
    step s = .next (s.faultedWith .illegalInstruction (s.memRead s.pc.toNat).toNat))

/-! ### Operands and fetch -/

/-- R63: `RegIndex(b)` is b for 0 to 7 and raises RegisterIndexOutOfRange(b) above; never reduced modulo 8. -/
def Obligations.RegisterIndexIsTheWholeByte : Prop :=
  ∀ b : Byte, (7 < b.toNat → regIndex b = .error (.registerIndexOutOfRange b)) ∧
    (b.toNat ≤ 7 → ∃ r : Fin 8, regIndex b = .ok r ∧ r.val = b.toNat)

/-- R62: `FetchOperand(k)` reads at the unreduced sum pc + k and raises AddressOutOfRange(pc + k) above 255. It answers a byte or a fault
and no state, so that a fetch leaves pc alone is its type. -/
def Obligations.OperandFetchNeverWraps : Prop :=
  ∀ (s : State) (k : Nat), k = 1 ∨ k = 2 →
    (255 < s.pc.toNat + k → fetchOperand s k = .error (.addressOutOfRange (s.pc.toNat + k))) ∧
    (s.pc.toNat + k ≤ 255 → fetchOperand s k = .ok (s.memRead (s.pc.toNat + k)))

/-- A step of a running core is what the decoder says of the bytes from `pc` to the end of memory: the instruction they decode to
is executed, and where they decode to none the step raises the fault that names why. -/
def Obligations.StepExecutesTheInstructionDecodedAtPc : Prop :=
  ∀ s : State, s.run = .running →
    (∀ i rest, decode s.bytesAtPc = .ok (i, rest) → step s = exec i s) ∧
    (∀ op, decode s.bytesAtPc = .error (.illegalInstruction op) →
      step s = .next (s.faultedWith .illegalInstruction op.toNat)) ∧
    (∀ k, decode s.bytesAtPc = .error (.missingOperand k) →
      step s = .next (s.faultedWith .addressOutOfRange (s.pc.toNat + k))) ∧
    (decode s.bytesAtPc = .error .noOpcode → step s = .next (s.faultedWith .addressOutOfRange s.pc.toNat))

/-! ### Faults -/

/-- Every instruction with a register operand raises RegisterIndexOutOfRange for a byte above 7, operand `a` before operand
`b`, and does nothing else; a conditional jump does so whether or not it would be taken (the spec's decisions D7, D8). -/
def Obligations.RegisterOperandAboveSevenTraps : Prop :=
  ∀ (s : State) (a b : Byte),
    (7 < a.toNat → ∀ i ∈ [Instr.ldi a b, .prn a, .mul a b, .add a b, .push a, .pop a, .call a, .cmp a b, .jmp a, .jeq a,
        .jne a], exec i s = .next (s.faultedWith .registerIndexOutOfRange a.toNat)) ∧
    (a.toNat ≤ 7 → 7 < b.toNat → ∀ i ∈ [Instr.mul a b, .add a b, .cmp a b],
      exec i s = .next (s.faultedWith .registerIndexOutOfRange b.toNat))

/-- The first failing check, in the order of the spec, decides the fault of a step, and a step whose checks all pass raises none:
opcode address, opcode, operand 1 address, operand 2 address, index a, index b, CALL's return address. Rests on the spec's decision D7. -/
def Obligations.FirstFailingCheckDecidesTheFault : Prop :=
  ∀ s : State, s.run = .running →
    let pc := s.pc.toNat
    let op := s.memRead pc
    let two : List Byte := [0x45, 0x46, 0x47, 0x50, 0x54, 0x55, 0x56]
    let three : List Byte := [0x82, 0xA0, 0xA2, 0xA7]
    (255 < pc → step s = .next (s.faultedWith .addressOutOfRange pc)) ∧
    (pc ≤ 255 → op ∉ opcodes → step s = .next (s.faultedWith .illegalInstruction op.toNat)) ∧
    (pc = 255 → op ∈ two ++ three → step s = .next (s.faultedWith .addressOutOfRange 256)) ∧
    (pc = 254 → op ∈ three → step s = .next (s.faultedWith .addressOutOfRange 256)) ∧
    ((pc ≤ 254 ∧ op ∈ two) ∨ (pc ≤ 253 ∧ op ∈ three) → 7 < s.operand 1 →
      step s = .next (s.faultedWith .registerIndexOutOfRange (s.operand 1))) ∧
    (pc ≤ 253 → op ∈ three → op ≠ 0x82 → s.operand 1 ≤ 7 → 7 < s.operand 2 →
      step s = .next (s.faultedWith .registerIndexOutOfRange (s.operand 2))) ∧
    (pc = 254 → op = 0x50 → s.operand 1 ≤ 7 → step s = .next (s.faultedWith .addressOutOfRange 256)) ∧
    (∀ t, step s = .next t → t.run = .faulted →
      255 < pc ∨ op ∉ opcodes ∨ (pc = 255 ∧ op ∈ two ++ three) ∨ (pc = 254 ∧ op ∈ three) ∨
      (op ∈ two ++ three ∧ 7 < s.operand 1) ∨ (op ∈ three ∧ op ≠ 0x82 ∧ 7 < s.operand 2) ∨ (pc = 254 ∧ op = 0x50))

/-- Faults are precise: a step that ends FAULTED changed nothing but the run state and the fault record. Rests on the spec's decision
D5. -/
def Obligations.FaultingStepChangesOnlyTheRecord : Prop :=
  ∀ s t : State, s.run = .running → step s = .next t → t.run = .faulted →
    t = { s with run := .faulted, faultCause := t.faultCause, faultInfo := t.faultInfo } ∧ t.faultCause ≠ .none

/-- A step is total: it always answers a next state, and a run under any budget always answers. -/
def Obligations.StepAlwaysAnswersANextState : Prop :=
  (∀ s : State, ∃ t, step s = .next t) ∧ (∀ (budget : Nat) (s : State), ∃ r, runLoop budget s = .next r)

/-- RUNNING is left for HALTED exactly by a HLT at `pc`, and for FAULTED exactly with a cause recorded. Rests on the spec's decision
D5 for FAULTED. -/
def Obligations.RunningEndsOnlyByHltOrFault : Prop :=
  ∀ s t : State, s.run = .running → s.faultCause = .none → step s = .next t →
    (t.run = .halted ↔ s.pc.toNat ≤ 255 ∧ s.memRead s.pc.toNat = 0x01) ∧
    (t.run = .halted → t.pc.toNat = s.pc.toNat + 1) ∧
    (t.run = .faulted ↔ t.faultCause ≠ .none)

/-! ### The invariant -/

/-- Every step keeps the invariant: canonical memory, pc at most 256, a fault record that is clear until a fault and then
explains the instruction at pc, and after a halt a HLT just before pc. The canonical memory form is the model's choice (log entry 6,
DESIGN CHOICE). -/
def Obligations.StepKeepsTheInvariant : Prop := ∀ s t : State, s.Inv → step s = .next t → t.Inv

/-- The state after reset and every launched state satisfy the invariant, whose canonical memory form is the model's choice (log entry 6,
DESIGN CHOICE). -/
def Obligations.ResetAndLaunchedStatesSatisfyTheInvariant : Prop :=
  State.reset.Inv ∧ ∀ image s, launch image = some s → s.Inv

/-- In every state a run reaches pc is at most 256, and AddressOutOfRange always records 256 (inferences the spec marks in
R14 and R102). -/
def Obligations.ReachablePcAndAddressFaultBound : Prop :=
  ∀ s : State, Reachable s → s.pc.toNat ≤ 256 ∧ (s.faultCause = .addressOutOfRange → s.faultInfo = 256)

/-- The new pc of every well-formed instruction that lies inside the memory (for CALL, with an in-range return address): the
increment by its length, unwrapped, or the 8-bit target. That CALL R7 takes the decremented pointer is the spec's decision D9. -/
def Obligations.PcAfterEveryInstruction : Prop :=
  ∀ (s t : State) (i : Instr), i.wf = true → s.pc.toNat + i.length ≤ 256 → (∀ a, i = .call a → s.pc.toNat ≤ 253) →
    exec i s = .next t → t.pc.toNat =
      match i with
      | .hlt => s.pc.toNat + 1
      | .prn _ | .push _ | .pop _ => s.pc.toNat + 2
      | .ldi _ _ | .add _ _ | .mul _ _ | .cmp _ _ => s.pc.toNat + 3
      | .jmp a => (s.regOf a).toNat
      | .jeq a => if s.fl then (s.regOf a).toNat else s.pc.toNat + 2
      | .jne a => if s.fl then s.pc.toNat + 2 else (s.regOf a).toNat
      | .call a => if a = 7 then ((s.reg 7).toNat + 255) % 256 else (s.regOf a).toNat
      | .ret => (s.memRead (s.reg 7).toNat).toNat

/-! ### The ALU -/

/-- The four operations on the register file (R72, R73), both operands read before the write; with a = b ADD doubles, MUL squares, SUB
clears and CMP sets the flag. Results modulo 256, SUB's wrap below zero included, are the spec's decision D1; that the model has SUB,
in an ALU of its own, is its own choice (log entry 9, DESIGN CHOICE). -/
def Obligations.AluComputesItsFourOperations : Prop :=
  ∀ (s : State) (a b : Fin 8),
    alu .add a b s = s.setReg a (BitVec.ofNat 8 (((s.reg a).toNat + (s.reg b).toNat) % 256)) ∧
    alu .mul a b s = s.setReg a (BitVec.ofNat 8 (((s.reg a).toNat * (s.reg b).toNat) % 256)) ∧
    alu .sub a b s = s.setReg a (BitVec.ofNat 8 (((s.reg a).toNat + 256 - (s.reg b).toNat) % 256)) ∧
    alu .cmp a b s = { s with fl := decide ((s.reg a).toNat = (s.reg b).toNat) } ∧
    ((alu .add a a s).reg a).toNat = 2 * (s.reg a).toNat % 256 ∧
    ((alu .mul a a s).reg a).toNat = (s.reg a).toNat ^ 2 % 256 ∧
    (alu .sub a a s).reg a = 0 ∧ (alu .cmp a a s).fl = true

/-! ### Each instruction completes, with its result and its frame -/

/-- ADD and MUL complete for every pair of registers: the low 8 bits (the spec's decision D1) into operand a, pc + 3, and nothing else
changes. -/
def Obligations.AddAndMulComplete : Prop :=
  ∀ (s : State) (a b : Fin 8), ∃ t u,
    exec (.add (regByte a) (regByte b)) s = .next t ∧ exec (.mul (regByte a) (regByte b)) s = .next u ∧
    (t.reg a).toNat = ((s.reg a).toNat + (s.reg b).toNat) % 256 ∧
    (u.reg a).toNat = (s.reg a).toNat * (s.reg b).toNat % 256 ∧
    t.pc = s.pc + 3 ∧ u.pc = s.pc + 3 ∧
    s.keepsRegs t [a] ∧ t.fl = s.fl ∧ s.keepsMem t ∧ t.out = s.out ∧ s.keepsStatus t ∧
    s.keepsRegs u [a] ∧ u.fl = s.fl ∧ s.keepsMem u ∧ u.out = s.out ∧ s.keepsStatus u

/-- CMP completes for every pair of registers: the flag is 1 exactly when they are equal, pc + 3, and nothing else changes. -/
def Obligations.CmpCompletes : Prop :=
  ∀ (s : State) (a b : Fin 8), ∃ t, exec (.cmp (regByte a) (regByte b)) s = .next t ∧
    (t.fl = true ↔ s.reg a = s.reg b) ∧ t.pc = s.pc + 3 ∧
    s.keepsRegs t [] ∧ s.keepsMem t ∧ t.out = s.out ∧ s.keepsStatus t

/-- LDI completes for every register and every immediate: the register holds it, pc + 3, and nothing else changes. -/
def Obligations.LdiCompletes : Prop :=
  ∀ (s : State) (a : Fin 8) (imm : Byte), ∃ t, exec (.ldi (regByte a) imm) s = .next t ∧
    t.reg a = imm ∧ t.pc = s.pc + 3 ∧
    s.keepsRegs t [a] ∧ t.fl = s.fl ∧ s.keepsMem t ∧ t.out = s.out ∧ s.keepsStatus t

/-- PRN completes for every register: the output gains its value, pc + 2, and nothing else changes. -/
def Obligations.PrnCompletes : Prop :=
  ∀ (s : State) (a : Fin 8), ∃ t, exec (.prn (regByte a)) s = .next t ∧
    t.out = s.out ++ [s.reg a] ∧ t.pc = s.pc + 2 ∧
    s.keepsRegs t [] ∧ t.fl = s.fl ∧ s.keepsMem t ∧ s.keepsStatus t

/-- PUSH completes for every register: SP is decremented modulo 256, the byte at the new SP is the register as it is after the
decrement (for R7 the decremented pointer, the spec's decision D9), pc + 2, and no other register or byte changes. -/
def Obligations.PushCompletes : Prop :=
  ∀ (s : State) (a : Fin 8), s.mem.wf → ∃ t, exec (.push (regByte a)) s = .next t ∧
    (t.reg 7).toNat = ((s.reg 7).toNat + 255) % 256 ∧ s.decSp.stackAddr = (t.reg 7).toNat ∧
    t.memRead s.decSp.stackAddr = (if a = 7 then t.reg 7 else s.reg a) ∧ t.pc = s.pc + 2 ∧
    s.keepsRegs t [7] ∧ t.fl = s.fl ∧ s.keepsMemBut t s.decSp.stackAddr ∧ t.out = s.out ∧ s.keepsStatus t

/-- POP completes for every register: the byte at SP into the register, SP incremented modulo 256 (for R7 the loaded byte plus
one, the spec's decision D9), pc + 2, and no other register and no byte changes. -/
def Obligations.PopCompletes : Prop :=
  ∀ (s : State) (a : Fin 8), ∃ t, exec (.pop (regByte a)) s = .next t ∧
    (a ≠ 7 → t.reg a = s.memRead (s.reg 7).toNat ∧ (t.reg 7).toNat = ((s.reg 7).toNat + 1) % 256) ∧
    (a = 7 → (t.reg 7).toNat = ((s.memRead (s.reg 7).toNat).toNat + 1) % 256) ∧ t.pc = s.pc + 2 ∧
    s.keepsRegs t [a, 7] ∧ t.fl = s.fl ∧ s.keepsMem t ∧ t.out = s.out ∧ s.keepsStatus t

/-- CALL completes for every register when the return address pc + 2 is at most 255: it is pushed, pc takes the register as it is
after the decrement (D9), and no other register or byte changes. Above, AddressOutOfRange(pc + 2) is raised and nothing changes
(the spec's decision D4). -/
def Obligations.CallCompletes : Prop :=
  ∀ (s : State) (a : Fin 8),
    (s.mem.wf → s.pc.toNat ≤ 253 → ∃ t, exec (.call (regByte a)) s = .next t ∧
      (t.reg 7).toNat = ((s.reg 7).toNat + 255) % 256 ∧ s.decSp.stackAddr = (t.reg 7).toNat ∧
      (t.memRead s.decSp.stackAddr).toNat = s.pc.toNat + 2 ∧
      t.pc.toNat = (if a = 7 then t.reg 7 else s.reg a).toNat ∧
      s.keepsRegs t [7] ∧ t.fl = s.fl ∧ s.keepsMemBut t s.decSp.stackAddr ∧ t.out = s.out ∧ s.keepsStatus t) ∧
    (254 ≤ s.pc.toNat → exec (.call (regByte a)) s = .next (s.faultedWith .addressOutOfRange (s.pc.toNat + 2)))

/-- RET completes in every state: pc takes the byte at SP, SP is incremented modulo 256, and nothing else changes. -/
def Obligations.RetCompletes : Prop :=
  ∀ s : State, ∃ t, exec .ret s = .next t ∧
    t.pc.toNat = (s.memRead (s.reg 7).toNat).toNat ∧ (t.reg 7).toNat = ((s.reg 7).toNat + 1) % 256 ∧
    s.keepsRegs t [7] ∧ t.fl = s.fl ∧ s.keepsMem t ∧ t.out = s.out ∧ s.keepsStatus t

/-- JMP, JEQ and JNE complete for every register: JMP always jumps, JEQ when the flag is 1 and JNE when it is 0, the other of the
two moves to pc + 2; nothing but pc changes, the flag included. -/
def Obligations.JumpsComplete : Prop :=
  ∀ (s : State) (a : Fin 8),
    exec (.jmp (regByte a)) s = .next { s with pc := BitVec.ofNat 9 (s.reg a).toNat } ∧
    exec (.jeq (regByte a)) s =
      .next { s with pc := if s.fl = true then BitVec.ofNat 9 (s.reg a).toNat else s.pc + 2 } ∧
    exec (.jne (regByte a)) s =
      .next { s with pc := if s.fl = false then BitVec.ofNat 9 (s.reg a).toNat else s.pc + 2 }

/-- HLT completes in every state: pc + 1 and HALTED, and nothing else changes. -/
def Obligations.HltCompletes : Prop :=
  ∀ s : State, ∃ t, exec .hlt s = .next t ∧ t.pc = s.pc + 1 ∧ t.run = .halted ∧
    s.keepsRegs t [] ∧ t.fl = s.fl ∧ s.keepsMem t ∧ t.out = s.out ∧
    t.faultCause = s.faultCause ∧ t.faultInfo = s.faultInfo

/-! ### Each instruction as one step, from its bytes in memory, with its exceptions -/

/-- R81: LDI; and LDI into a register followed by PRN of it emits the immediate, for every register and byte. -/
def Obligations.StepOfLdi : Prop :=
  (∀ s : State, s.atOpcode 0x82 → s.stepsAsRI fun a imm =>
    { s.setReg a imm with pc := BitVec.ofNat 9 (s.pc.toNat + 3) }) ∧
  (∀ (s : State) (r : Fin 8), s.atOpcode 0x82 → s.pc.toNat ≤ 251 → s.operand 1 = r.val →
    s.memRead (s.pc.toNat + 3) = 0x47 → s.operand 4 = r.val →
    ∃ t u, step s = .next t ∧ step t = .next u ∧ u.out = s.out ++ [s.memRead (s.pc.toNat + 2)])

/-- PRN as one step (R82); the value's text is its decimal digits, one to three, unsigned, 0 as `0` and 255 as `255`, on a line of its own
(R20; the form is the spec's decision D10), after the text of what was emitted before it (an inference the spec marks in R83). -/
def Obligations.StepOfPrn : Prop :=
  (∀ s : State, s.atOpcode 0x47 → s.stepsAsR fun a =>
    { s with out := s.out ++ [s.reg a], pc := BitVec.ofNat 9 (s.pc.toNat + 2) }) ∧
  (∀ (out : List Byte) (v : Byte), outText (out ++ [v]) = outText out ++ decimalText v ++ ['\n'] ∧
    1 ≤ (decimalText v).length ∧ (decimalText v).length ≤ 3) ∧
  decimalText 0 = ['0'] ∧ decimalText 0xFF = ['2', '5', '5']

/-- R75: ADD. -/
def Obligations.StepOfAdd : Prop :=
  ∀ s : State, s.atOpcode 0xA0 → s.stepsAsRR fun a b =>
    { s.setReg a (BitVec.ofNat 8 (((s.reg a).toNat + (s.reg b).toNat) % 256)) with
      pc := BitVec.ofNat 9 (s.pc.toNat + 3) }

/-- R76: MUL. -/
def Obligations.StepOfMul : Prop :=
  ∀ s : State, s.atOpcode 0xA2 → s.stepsAsRR fun a b =>
    { s.setReg a (BitVec.ofNat 8 (((s.reg a).toNat * (s.reg b).toNat) % 256)) with
      pc := BitVec.ofNat 9 (s.pc.toNat + 3) }

/-- R77: CMP. -/
def Obligations.StepOfCmp : Prop :=
  ∀ s : State, s.atOpcode 0xA7 → s.stepsAsRR fun a b =>
    { s with fl := decide ((s.reg a).toNat = (s.reg b).toNat), pc := BitVec.ofNat 9 (s.pc.toNat + 3) }

/-- PUSH as one step; the value for R7 is the decremented pointer (the spec's decision D9). -/
def Obligations.StepOfPush : Prop :=
  ∀ s : State, s.atOpcode 0x45 → s.stepsAsR fun a =>
    let sp : Byte := BitVec.ofNat 8 (((s.reg 7).toNat + 255) % 256)
    { s.setReg 7 sp with
      mem := s.mem.write sp.toNat (if a = 7 then sp else s.reg a)
      pc := BitVec.ofNat 9 (s.pc.toNat + 2) }

/-- POP as one step; for R7 the loaded byte is incremented (the spec's decision D9). -/
def Obligations.StepOfPop : Prop :=
  ∀ s : State, s.atOpcode 0x46 → s.stepsAsR fun a =>
    let v : Byte := s.memRead (s.reg 7).toNat
    let old : Byte := if a = 7 then v else s.reg 7
    { (s.setReg a v).setReg 7 (BitVec.ofNat 8 ((old.toNat + 1) % 256)) with
      pc := BitVec.ofNat 9 (s.pc.toNat + 2) }

/-- CALL as one step, below its return-address check; at pc = 254 it raises AddressOutOfRange(256) after its index check (the spec's
decisions D4, D7, D9). -/
def Obligations.StepOfCall : Prop :=
  ∀ s : State, s.atOpcode 0x50 →
    s.stepsAsR fun a =>
      if s.pc.toNat = 254 then s.faultedWith .addressOutOfRange 256
      else
        let sp : Byte := BitVec.ofNat 8 (((s.reg 7).toNat + 255) % 256)
        { s.setReg 7 sp with
          mem := s.mem.write sp.toNat (BitVec.ofNat 8 (s.pc.toNat + 2))
          pc := BitVec.ofNat 9 (if a = 7 then sp else s.reg a).toNat }

/-- R91: RET. -/
def Obligations.StepOfRet : Prop :=
  ∀ s : State, s.atOpcode 0x11 → step s = .next
    { s.setReg 7 (BitVec.ofNat 8 (((s.reg 7).toNat + 1) % 256)) with
      pc := BitVec.ofNat 9 (s.memRead (s.reg 7).toNat).toNat }

/-- R92: JMP. -/
def Obligations.StepOfJmp : Prop :=
  ∀ s : State, s.atOpcode 0x54 → s.stepsAsR fun a => { s with pc := BitVec.ofNat 9 (s.reg a).toNat }

/-- JEQ as one step; its operand is fetched and checked even when it is not taken (the spec's decision D8). -/
def Obligations.StepOfJeq : Prop :=
  ∀ s : State, s.atOpcode 0x55 → s.stepsAsR fun a =>
    { s with pc := if s.fl = true then BitVec.ofNat 9 (s.reg a).toNat else BitVec.ofNat 9 (s.pc.toNat + 2) }

/-- JNE as one step; its operand is fetched and checked even when it is not taken (the spec's decision D8). -/
def Obligations.StepOfJne : Prop :=
  ∀ s : State, s.atOpcode 0x56 → s.stepsAsR fun a =>
    { s with pc := if s.fl = false then BitVec.ofNat 9 (s.reg a).toNat else BitVec.ofNat 9 (s.pc.toNat + 2) }

/-- R95: HLT; HALTED is terminal, and nothing but a HLT leads to it. -/
def Obligations.StepOfHlt : Prop :=
  (∀ s : State, s.atOpcode 0x01 → step s = .next { s with pc := BitVec.ofNat 9 (s.pc.toNat + 1), run := .halted }) ∧
  (∀ s t : State, s.run = .halted → step s = .next t → t = s) ∧
  (∀ s t : State, s.run = .running → step s = .next t → t.run = .halted → s.atOpcode 0x01)

/-! ### Rules of the whole machine -/

/-- R15: one flag, 0 at reset, written only by CMP and read only by JEQ and JNE: no other instruction changes it, and without JEQ or JNE
at pc its value makes no difference to anything but itself; before any CMP, JEQ falls through and JNE jumps. -/
def Obligations.FlagIsWrittenByCmpAndReadByJumpsOnly : Prop :=
  State.reset.fl = false ∧
  (∀ (s : State) (a b : Fin 8), ∃ t, exec (.cmp (regByte a) (regByte b)) s = .next t ∧
    t.fl = decide (s.reg a = s.reg b)) ∧
  (∀ s t : State, step s = .next t → t.fl ≠ s.fl → s.atOpcode 0xA7) ∧
  (∀ (s t : State) (f : Bool), ¬ s.atOpcode 0x55 → ¬ s.atOpcode 0x56 → step s = .next t →
    ∃ f', step { s with fl := f } = .next { t with fl := f' }) ∧
  (∀ (s : State) (a : Fin 8), s.fl = false →
    exec (.jeq (regByte a)) s = .next { s with pc := s.pc + 2 } ∧
    exec (.jne (regByte a)) s = .next { s with pc := BitVec.ofNat 9 (s.reg a).toNat })

/-- The output is append-only and never read: a step adds at most one value, only a PRN adds one, and replacing the output so far
by any other changes nothing but the output so far. -/
def Obligations.OutputIsAppendedByPrnAndNeverRead : Prop :=
  ∀ (s t : State) (other : List Byte), step s = .next t →
    ∃ new, t.out = s.out ++ new ∧ new.length ≤ 1 ∧ (new ≠ [] → s.atOpcode 0x47) ∧
      step { s with out := other } = .next { t with out := other ++ new }

/-- MemWrite sets one cell, which the next MemRead returns, and no other (R31); the only instructions that change memory are PUSH and CALL,
and they change only the cell at the decremented stack pointer (which wraps by the spec's decision D2). The canonical form of the memory
list, and so the clause that a write keeps it, is the model's choice (log entry 6, DESIGN CHOICE). -/
def Obligations.MemoryIsWrittenByPushAndCallOnly : Prop :=
  (∀ (m : Memory) (addr : Nat) (v : Byte), m.wf → addr ≤ 255 →
    (m.write addr v).read addr = v ∧ (m.write addr v).wf) ∧
  (∀ (m : Memory) (addr other : Nat) (v : Byte), other ≠ addr → (m.write addr v).read other = m.read other) ∧
  (∀ (s t : State) (addr : Nat), step s = .next t → t.memRead addr ≠ s.memRead addr →
    (s.atOpcode 0x45 ∨ s.atOpcode 0x50) ∧ addr = s.decSp.stackAddr)

/-- The memory list is canonical: two memories in canonical form that read the same at every address 0 to 255 are the same list. The form is
the model's (log entry 6). -/
def Obligations.EqualReadsMeanEqualMemories : Prop :=
  ∀ m n : Memory, m.wf → n.wf → (∀ addr, addr ≤ 255 → m.read addr = n.read addr) → m = n

/-- A register changes in a step only as the destination of LDI, ADD, MUL or POP, or as the stack pointer of PUSH, POP, CALL or RET. -/
def Obligations.RegistersChangeOnlyByTheirWriters : Prop :=
  ∀ (s t : State) (r : Fin 8), step s = .next t → t.reg r ≠ s.reg r →
    ((s.atOpcode 0x82 ∨ s.atOpcode 0xA0 ∨ s.atOpcode 0xA2 ∨ s.atOpcode 0x46) ∧ s.operand 1 = r.val) ∨
    ((s.atOpcode 0x45 ∨ s.atOpcode 0x46 ∨ s.atOpcode 0x50 ∨ s.atOpcode 0x11) ∧ r = 7)

/-! ### Two steps -/

/-- PUSH A then POP B restores the stack pointer and moves the value, for A and B in 0 to 6 and any stack pointer, when the pushed cell is
not one of the instructions' own bytes; with A = 7 the popped value is the decremented pointer, with B = 7 the pointer ends at the value plus
one (inferences the spec marks in R88; decisions D2, D9). -/
def Obligations.PushThenPopRoundTrip : Prop :=
  ∀ (s : State) (a b : Fin 8), s.mem.wf → s.atOpcode 0x45 → s.pc.toNat ≤ 252 → s.operand 1 = a.val →
    s.memRead (s.pc.toNat + 2) = 0x46 → s.operand 3 = b.val →
    s.decSp.stackAddr ≠ s.pc.toNat + 2 → s.decSp.stackAddr ≠ s.pc.toNat + 3 →
    ∃ t u, step s = .next t ∧ step t = .next u ∧ u.pc.toNat = s.pc.toNat + 4 ∧
      s.keepsRegs u [b, 7] ∧ s.keepsMemBut u s.decSp.stackAddr ∧ u.fl = s.fl ∧ u.out = s.out ∧ s.keepsStatus u ∧
      (a ≠ 7 → b ≠ 7 → u.reg b = s.reg a ∧ u.reg 7 = s.reg 7) ∧
      (a = 7 → b ≠ 7 → u.reg b = s.reg 7 - 1 ∧ u.reg 7 = s.reg 7) ∧
      (a ≠ 7 → b = 7 → u.reg 7 = s.reg a + 1) ∧
      (a = 7 → b = 7 → u.reg 7 = s.reg 7)

/-- CALL of a subroutine that is only RET comes back to the byte after the CALL with every register, the stack pointer included, as it was;
only the stack slot holds a new byte, the return address. That the pair restores the stack pointer is an inference the spec marks in R97.
CALL R7 is not among them: it jumps to its own stack slot (decision D9), and `StepOfCall` says what its step does. -/
def Obligations.CallThenRetRoundTrip : Prop :=
  ∀ (s : State) (a : Fin 8), s.mem.wf → s.atOpcode 0x50 → s.pc.toNat ≤ 253 → s.operand 1 = a.val → a ≠ 7 →
    s.memRead (s.reg a).toNat = 0x11 → s.decSp.stackAddr ≠ (s.reg a).toNat →
    ∃ t u, step s = .next t ∧ step t = .next u ∧ u.pc.toNat = s.pc.toNat + 2 ∧
      (u.memRead s.decSp.stackAddr).toNat = s.pc.toNat + 2 ∧ s.keepsRegs u [] ∧
      s.keepsMemBut u s.decSp.stackAddr ∧ u.fl = s.fl ∧ u.out = s.out ∧ s.keepsStatus u

/-- A byte that PUSH stores where the next opcode lies is the opcode the very next step decodes (the spec's decision D14). -/
def Obligations.PushedByteIsTheNextOpcode : Prop :=
  ∀ (s : State) (a : Fin 8), s.mem.wf → s.atOpcode 0x45 → s.pc.toNat ≤ 253 → s.operand 1 = a.val → a ≠ 7 →
    s.decSp.stackAddr = s.pc.toNat + 2 →
    ∃ t, step s = .next t ∧ t.atOpcode (s.reg a) ∧
      (s.reg a ∉ opcodes → step t = .next (t.faultedWith .illegalInstruction (s.reg a).toNat)) ∧
      (s.reg a = 0x01 → ∃ u, step t = .next u ∧ u.run = .halted ∧ u.pc.toNat = s.pc.toNat + 3)

/-- The stack pointer wraps modulo 256 and no stack access faults: a push at 0x00 writes cell 0xFF, a pop at 0xFF reads it and leaves 0x00, and
from reset a pop reads cell 0xF4 and leaves 0xF5. Rests on the spec's decision D2. -/
def Obligations.StackPointerWraps : Prop :=
  (∀ (s : State) (a : Fin 8), s.mem.wf → s.reg 7 = 0x00 → a ≠ 7 →
    ∃ t, exec (.push (regByte a)) s = .next t ∧ t.reg 7 = 0xFF ∧ t.memRead 0xFF = s.reg a) ∧
  (∀ (s : State) (a : Fin 8), s.reg 7 = 0xFF → a ≠ 7 →
    ∃ t, exec (.pop (regByte a)) s = .next t ∧ t.reg 7 = 0x00 ∧ t.reg a = s.memRead 0xFF) ∧
  (∃ t, exec (.pop (regByte 0)) State.reset = .next t ∧ t.reg 0 = State.reset.memRead 0xF4 ∧ t.reg 7 = 0xF5) ∧
  (∀ (s t : State) (a : Fin 8) (i : Instr), i ∈ [Instr.push (regByte a), .pop (regByte a), .ret] → s.run = .running →
    exec i s = .next t → t.run = .running)

/-! ### Output text and the runner -/

/-- The text of an output is the concatenation of its values' lines (an inference the spec marks in R83), and each value's line is its decimal
numeral and one line feed: its digits give the value back, and the first is not `0` unless the value is 0 (decision D10). -/
def Obligations.OutputTextIsDecimalLines : Prop :=
  (∀ xs ys : List Byte, outText (xs ++ ys) = outText xs ++ outText ys) ∧ outText [] = [] ∧
  outText [1, 2, 3] = ['1', '\n', '2', '\n', '3', '\n'] ∧
  (∀ v : Byte, outText [v] = decimalText v ++ ['\n']) ∧
  (∀ v : Byte, (decimalText v).foldl (fun n c => 10 * n + (c.toNat - 48)) 0 = v.toNat ∧
    (∀ c ∈ decimalText v, '0' ≤ c ∧ c ≤ '9') ∧ (v ≠ 0 → (decimalText v).head? ≠ some '0') ∧ decimalText 0 = ['0'])

/-- No two outputs have the same text: the text shown determines the sequence of values the core emitted. -/
def Obligations.OutputTextDeterminesTheValues : Prop := ∀ xs ys : List Byte, outText xs = outText ys → xs = ys

/-- The step budget is the runner's and no state of the machine: a run out of budget is still RUNNING; a run that ended stays so under any
larger budget; and a run that halts never faults. Rests on the spec's decision D12. -/
def Obligations.BudgetNeverChangesTheOutcome : Prop :=
  (∀ budget s t, runLoop budget s = .next (.unfinished t) → t.run = .running) ∧
  (∀ budget s t, runLoop budget s = .next (.halted t) → t.run = .halted ∧ t.safe ∧
    ∀ more, runLoop (budget + more) s = .next (.halted t)) ∧
  (∀ budget s t, runLoop budget s = .next (.faulted t) → t.run = .faulted ∧
    ∀ more, runLoop (budget + more) s = .next (.faulted t)) ∧
  (∀ (s : State) budget, s.haltsWithin budget → ∀ other t, runLoop other s ≠ .next (.faulted t))
end

