-- ==== Sys2Proof/Laws/Decode.lean ====
section
/-! SUPPORT. The laws of the opcode map, the decoder and the encoder. -/

namespace Sys2Proof

/-- No two rows of the opcode map share an opcode. -/
theorem opcodeTable_distinct : opcodeTable.Pairwise fun r q => r.opcode ≠ q.opcode := by
  simp only [opcodeTable]
  decide

/-- A format comes from a row of the opcode map with exactly that opcode byte. -/
theorem formatOf_some {op : Byte} {f : Format} (h : formatOf op = some f) : ⟨op, f⟩ ∈ opcodeTable := by
  simp only [formatOf, Option.map_eq_some_iff] at h
  obtain ⟨row, hrow, rfl⟩ := h
  have hop : row.opcode = op := by simpa using List.find?_some hrow
  subst hop
  exact List.mem_of_find?_eq_some hrow

/-- An opcode byte has no format exactly when no row of the map holds it. -/
theorem formatOf_none {op : Byte} : formatOf op = none ↔ op ∉ opcodeTable.map OpcodeRow.opcode := by
  simp only [formatOf, Option.map_eq_none_iff, List.find?_eq_none, List.mem_map]
  constructor
  · rintro h ⟨row, hrow, rfl⟩
    exact h row hrow (by simp)
  · intro h row hrow he
    exact h ⟨row, hrow, by simpa using he⟩

/-- The one thing a decoder over operand bytes can do: reject the opcode, report a missing operand, or make the instruction
of a row of the opcode map from the operands it fetched. -/
theorem decodeWith_cases {ε : Type} {illegal : Byte → ε} {operand : Nat → Except ε Byte} {op : Byte} {i : Instr}
    (h : decodeWith illegal operand op = .ok i) :
    formatOf op = some (.z i) ∨
    (∃ make a, formatOf op = some (.r make) ∧ operand 1 = .ok a ∧ i = make a) ∨
    (∃ make a b, (formatOf op = some (.rr make) ∨ formatOf op = some (.ri make)) ∧ operand 1 = .ok a ∧
      operand 2 = .ok b ∧ i = make a b) := by
  unfold decodeWith at h
  repeat' split at h
  all_goals simp_all

/-- An illegal opcode is rejected without looking at any operand. -/
theorem decodeWith_illegal {ε : Type} (illegal : Byte → ε) (operand : Nat → Except ε Byte) {op : Byte}
    (h : formatOf op = none) : decodeWith illegal operand op = .error (illegal op) := by
  simp [decodeWith, h]

/-- Decoding the encoding of an instruction gives it back, with whatever bytes follow. -/
theorem decode_encode_append (i : Instr) (rest : List Byte) : decode (encode i ++ rest) = .ok (i, rest) := by
  cases i <;> rfl

theorem encode_length (i : Instr) : (encode i).length = i.length := by cases i <;> rfl

/-- The byte of register `r` names a register. -/
theorem regByte_namesRegister (r : Fin 8) : namesRegister (regByte r) = true := by revert r; decide

theorem regByte_toNat (r : Fin 8) : (regByte r).toNat = r.val := by revert r; decide

/-- A byte that names a register is that register's byte. -/
theorem exists_regByte {b : Byte} (h : b.toNat ≤ 7) : ∃ r : Fin 8, b = regByte r :=
  ⟨⟨b.toNat, by omega⟩, by apply BitVec.eq_of_toNat_eq; simp [regByte]⟩

end Sys2Proof
end

