-- ==== Sys2Proof/Laws/State.lean ====
section
/-! SUPPORT. One lemma per field per state update, and the registers and memory each update leaves, so that no later proof
unfolds a record update. -/

namespace Sys2Proof.Machine

/-! ### setReg -/

@[simp] theorem State.setReg_x (s : State) (r : Fin 8) (v : Byte) : (s.setReg r v).x = s.x.set r v := rfl
@[simp] theorem State.setReg_pc (s : State) (r : Fin 8) (v : Byte) : (s.setReg r v).pc = s.pc := rfl
@[simp] theorem State.setReg_fl (s : State) (r : Fin 8) (v : Byte) : (s.setReg r v).fl = s.fl := rfl
@[simp] theorem State.setReg_mem (s : State) (r : Fin 8) (v : Byte) : (s.setReg r v).mem = s.mem := rfl
@[simp] theorem State.setReg_run (s : State) (r : Fin 8) (v : Byte) : (s.setReg r v).run = s.run := rfl
@[simp] theorem State.setReg_faultCause (s : State) (r : Fin 8) (v : Byte) : (s.setReg r v).faultCause = s.faultCause := rfl
@[simp] theorem State.setReg_faultInfo (s : State) (r : Fin 8) (v : Byte) : (s.setReg r v).faultInfo = s.faultInfo := rfl
@[simp] theorem State.setReg_out (s : State) (r : Fin 8) (v : Byte) : (s.setReg r v).out = s.out := rfl
@[simp] theorem State.setReg_memRead (s : State) (r : Fin 8) (v : Byte) (a : Nat) : (s.setReg r v).memRead a = s.memRead a := rfl

/-! ### advance -/

@[simp] theorem State.advance_x (s : State) (n : Nat) : (s.advance n).x = s.x := rfl
@[simp] theorem State.advance_pc (s : State) (n : Nat) : (s.advance n).pc = s.pc + BitVec.ofNat 9 n := rfl
@[simp] theorem State.advance_fl (s : State) (n : Nat) : (s.advance n).fl = s.fl := rfl
@[simp] theorem State.advance_mem (s : State) (n : Nat) : (s.advance n).mem = s.mem := rfl
@[simp] theorem State.advance_run (s : State) (n : Nat) : (s.advance n).run = s.run := rfl
@[simp] theorem State.advance_faultCause (s : State) (n : Nat) : (s.advance n).faultCause = s.faultCause := rfl
@[simp] theorem State.advance_faultInfo (s : State) (n : Nat) : (s.advance n).faultInfo = s.faultInfo := rfl
@[simp] theorem State.advance_out (s : State) (n : Nat) : (s.advance n).out = s.out := rfl
@[simp] theorem State.advance_reg (s : State) (n : Nat) (i : Fin 8) : (s.advance n).reg i = s.reg i := rfl
@[simp] theorem State.advance_memRead (s : State) (n : Nat) (a : Nat) : (s.advance n).memRead a = s.memRead a := rfl

/-! ### jump -/

@[simp] theorem State.jump_x (s : State) (v : Byte) : (s.jump v).x = s.x := rfl
@[simp] theorem State.jump_pc (s : State) (v : Byte) : (s.jump v).pc = v.setWidth 9 := rfl
@[simp] theorem State.jump_fl (s : State) (v : Byte) : (s.jump v).fl = s.fl := rfl
@[simp] theorem State.jump_mem (s : State) (v : Byte) : (s.jump v).mem = s.mem := rfl
@[simp] theorem State.jump_run (s : State) (v : Byte) : (s.jump v).run = s.run := rfl
@[simp] theorem State.jump_faultCause (s : State) (v : Byte) : (s.jump v).faultCause = s.faultCause := rfl
@[simp] theorem State.jump_faultInfo (s : State) (v : Byte) : (s.jump v).faultInfo = s.faultInfo := rfl
@[simp] theorem State.jump_out (s : State) (v : Byte) : (s.jump v).out = s.out := rfl
@[simp] theorem State.jump_reg (s : State) (v : Byte) (i : Fin 8) : (s.jump v).reg i = s.reg i := rfl
@[simp] theorem State.jump_memRead (s : State) (v : Byte) (a : Nat) : (s.jump v).memRead a = s.memRead a := rfl

/-! ### memWrite -/

@[simp] theorem State.memWrite_x (s : State) (addr : Nat) (v : Byte) : (s.memWrite addr v).x = s.x := rfl
@[simp] theorem State.memWrite_pc (s : State) (addr : Nat) (v : Byte) : (s.memWrite addr v).pc = s.pc := rfl
@[simp] theorem State.memWrite_fl (s : State) (addr : Nat) (v : Byte) : (s.memWrite addr v).fl = s.fl := rfl
@[simp] theorem State.memWrite_mem (s : State) (addr : Nat) (v : Byte) : (s.memWrite addr v).mem = s.mem.write addr v := rfl
@[simp] theorem State.memWrite_run (s : State) (addr : Nat) (v : Byte) : (s.memWrite addr v).run = s.run := rfl
@[simp] theorem State.memWrite_faultCause (s : State) (addr : Nat) (v : Byte) : (s.memWrite addr v).faultCause = s.faultCause := rfl
@[simp] theorem State.memWrite_faultInfo (s : State) (addr : Nat) (v : Byte) : (s.memWrite addr v).faultInfo = s.faultInfo := rfl
@[simp] theorem State.memWrite_out (s : State) (addr : Nat) (v : Byte) : (s.memWrite addr v).out = s.out := rfl
@[simp] theorem State.memWrite_reg (s : State) (addr : Nat) (v : Byte) (i : Fin 8) : (s.memWrite addr v).reg i = s.reg i := rfl

/-! ### storeTop -/

@[simp] theorem State.storeTop_x (s : State) (v : Byte) : (s.storeTop v).x = s.x := rfl
@[simp] theorem State.storeTop_pc (s : State) (v : Byte) : (s.storeTop v).pc = s.pc := rfl
@[simp] theorem State.storeTop_fl (s : State) (v : Byte) : (s.storeTop v).fl = s.fl := rfl
@[simp] theorem State.storeTop_mem (s : State) (v : Byte) : (s.storeTop v).mem = s.mem.write s.stackAddr v := rfl
@[simp] theorem State.storeTop_run (s : State) (v : Byte) : (s.storeTop v).run = s.run := rfl
@[simp] theorem State.storeTop_faultCause (s : State) (v : Byte) : (s.storeTop v).faultCause = s.faultCause := rfl
@[simp] theorem State.storeTop_faultInfo (s : State) (v : Byte) : (s.storeTop v).faultInfo = s.faultInfo := rfl
@[simp] theorem State.storeTop_out (s : State) (v : Byte) : (s.storeTop v).out = s.out := rfl
@[simp] theorem State.storeTop_reg (s : State) (v : Byte) (i : Fin 8) : (s.storeTop v).reg i = s.reg i := rfl

/-! ### emit -/

@[simp] theorem State.emit_x (s : State) (v : Byte) : (s.emit v).x = s.x := rfl
@[simp] theorem State.emit_pc (s : State) (v : Byte) : (s.emit v).pc = s.pc := rfl
@[simp] theorem State.emit_fl (s : State) (v : Byte) : (s.emit v).fl = s.fl := rfl
@[simp] theorem State.emit_mem (s : State) (v : Byte) : (s.emit v).mem = s.mem := rfl
@[simp] theorem State.emit_run (s : State) (v : Byte) : (s.emit v).run = s.run := rfl
@[simp] theorem State.emit_faultCause (s : State) (v : Byte) : (s.emit v).faultCause = s.faultCause := rfl
@[simp] theorem State.emit_faultInfo (s : State) (v : Byte) : (s.emit v).faultInfo = s.faultInfo := rfl
@[simp] theorem State.emit_out (s : State) (v : Byte) : (s.emit v).out = s.out ++ [v] := rfl
@[simp] theorem State.emit_reg (s : State) (v : Byte) (i : Fin 8) : (s.emit v).reg i = s.reg i := rfl
@[simp] theorem State.emit_memRead (s : State) (v : Byte) (a : Nat) : (s.emit v).memRead a = s.memRead a := rfl

/-! ### halt -/

@[simp] theorem State.halt_x (s : State) : s.halt.x = s.x := rfl
@[simp] theorem State.halt_pc (s : State) : s.halt.pc = s.pc := rfl
@[simp] theorem State.halt_fl (s : State) : s.halt.fl = s.fl := rfl
@[simp] theorem State.halt_mem (s : State) : s.halt.mem = s.mem := rfl
@[simp] theorem State.halt_run (s : State) : s.halt.run = .halted := rfl
@[simp] theorem State.halt_faultCause (s : State) : s.halt.faultCause = s.faultCause := rfl
@[simp] theorem State.halt_faultInfo (s : State) : s.halt.faultInfo = s.faultInfo := rfl
@[simp] theorem State.halt_out (s : State) : s.halt.out = s.out := rfl
@[simp] theorem State.halt_reg (s : State) (i : Fin 8) : s.halt.reg i = s.reg i := rfl
@[simp] theorem State.halt_memRead (s : State) (a : Nat) : s.halt.memRead a = s.memRead a := rfl

/-! ### setFlag -/

@[simp] theorem State.setFlag_x (s : State) (f : Bool) : (s.setFlag f).x = s.x := rfl
@[simp] theorem State.setFlag_pc (s : State) (f : Bool) : (s.setFlag f).pc = s.pc := rfl
@[simp] theorem State.setFlag_fl (s : State) (f : Bool) : (s.setFlag f).fl = f := rfl
@[simp] theorem State.setFlag_mem (s : State) (f : Bool) : (s.setFlag f).mem = s.mem := rfl
@[simp] theorem State.setFlag_run (s : State) (f : Bool) : (s.setFlag f).run = s.run := rfl
@[simp] theorem State.setFlag_faultCause (s : State) (f : Bool) : (s.setFlag f).faultCause = s.faultCause := rfl
@[simp] theorem State.setFlag_faultInfo (s : State) (f : Bool) : (s.setFlag f).faultInfo = s.faultInfo := rfl
@[simp] theorem State.setFlag_out (s : State) (f : Bool) : (s.setFlag f).out = s.out := rfl
@[simp] theorem State.setFlag_reg (s : State) (f : Bool) (i : Fin 8) : (s.setFlag f).reg i = s.reg i := rfl
@[simp] theorem State.setFlag_memRead (s : State) (f : Bool) (a : Nat) : (s.setFlag f).memRead a = s.memRead a := rfl

/-! ### raise -/

@[simp] theorem State.raise_x (s : State) (t : Trap) : (s.raise t).x = s.x := rfl
@[simp] theorem State.raise_pc (s : State) (t : Trap) : (s.raise t).pc = s.pc := rfl
@[simp] theorem State.raise_fl (s : State) (t : Trap) : (s.raise t).fl = s.fl := rfl
@[simp] theorem State.raise_mem (s : State) (t : Trap) : (s.raise t).mem = s.mem := rfl
@[simp] theorem State.raise_run (s : State) (t : Trap) : (s.raise t).run = .faulted := rfl
@[simp] theorem State.raise_faultCause (s : State) (t : Trap) : (s.raise t).faultCause = t.cause := rfl
@[simp] theorem State.raise_faultInfo (s : State) (t : Trap) : (s.raise t).faultInfo = t.info := rfl
@[simp] theorem State.raise_out (s : State) (t : Trap) : (s.raise t).out = s.out := rfl
@[simp] theorem State.raise_reg (s : State) (t : Trap) (i : Fin 8) : (s.raise t).reg i = s.reg i := rfl
@[simp] theorem State.raise_memRead (s : State) (t : Trap) (a : Nat) : (s.raise t).memRead a = s.memRead a := rfl

/-! ### decSp -/

@[simp] theorem State.decSp_pc (s : State) : s.decSp.pc = s.pc := rfl
@[simp] theorem State.decSp_fl (s : State) : s.decSp.fl = s.fl := rfl
@[simp] theorem State.decSp_mem (s : State) : s.decSp.mem = s.mem := rfl
@[simp] theorem State.decSp_run (s : State) : s.decSp.run = s.run := rfl
@[simp] theorem State.decSp_faultCause (s : State) : s.decSp.faultCause = s.faultCause := rfl
@[simp] theorem State.decSp_faultInfo (s : State) : s.decSp.faultInfo = s.faultInfo := rfl
@[simp] theorem State.decSp_out (s : State) : s.decSp.out = s.out := rfl
@[simp] theorem State.decSp_memRead (s : State) (a : Nat) : s.decSp.memRead a = s.memRead a := rfl

/-! ### incSp -/

@[simp] theorem State.incSp_pc (s : State) : s.incSp.pc = s.pc := rfl
@[simp] theorem State.incSp_fl (s : State) : s.incSp.fl = s.fl := rfl
@[simp] theorem State.incSp_mem (s : State) : s.incSp.mem = s.mem := rfl
@[simp] theorem State.incSp_run (s : State) : s.incSp.run = s.run := rfl
@[simp] theorem State.incSp_faultCause (s : State) : s.incSp.faultCause = s.faultCause := rfl
@[simp] theorem State.incSp_faultInfo (s : State) : s.incSp.faultInfo = s.faultInfo := rfl
@[simp] theorem State.incSp_out (s : State) : s.incSp.out = s.out := rfl
@[simp] theorem State.incSp_memRead (s : State) (a : Nat) : s.incSp.memRead a = s.memRead a := rfl

/-! ### Registers after a register write -/

@[simp] theorem State.setReg_reg_same (s : State) (r : Fin 8) (v : Byte) : (s.setReg r v).reg r = v := by
  simp [State.reg, State.setReg]

@[simp] theorem State.setReg_reg_ne (s : State) {r i : Fin 8} (v : Byte) (h : i ≠ r) :
    (s.setReg r v).reg i = s.reg i := by
  have hne : r.val ≠ i.val := fun e => h (Fin.ext e.symm)
  simp [State.reg, State.setReg, hne]

/-- A register after a register write, in one equation. -/
theorem State.setReg_reg (s : State) (r i : Fin 8) (v : Byte) :
    (s.setReg r v).reg i = if i = r then v else s.reg i := by
  by_cases h : i = r
  · subst h; simp
  · simp [h]

@[simp] theorem State.decSp_sp (s : State) : s.decSp.reg Config.spIndex = s.reg Config.spIndex - 1 := by
  simp [State.decSp]

@[simp] theorem State.incSp_sp (s : State) : s.incSp.reg Config.spIndex = s.reg Config.spIndex + 1 := by
  simp [State.incSp]

@[simp] theorem State.decSp_reg_ne (s : State) {i : Fin 8} (h : i ≠ Config.spIndex) : s.decSp.reg i = s.reg i := by
  simp [State.decSp, h]

@[simp] theorem State.incSp_reg_ne (s : State) {i : Fin 8} (h : i ≠ Config.spIndex) : s.incSp.reg i = s.reg i := by
  simp [State.incSp, h]

/-! ### Two states with the same fields are the same state -/

/-- A state is its registers and its other fields. -/
theorem State.ext_reg {s t : State} (hx : ∀ r, s.reg r = t.reg r) (hpc : s.pc = t.pc) (hfl : s.fl = t.fl)
    (hmem : s.mem = t.mem) (hrun : s.run = t.run) (hc : s.faultCause = t.faultCause)
    (hi : s.faultInfo = t.faultInfo) (ho : s.out = t.out) : s = t := by
  have hv : s.x = t.x := Vector.ext fun i hi => hx ⟨i, hi⟩
  cases s; cases t; simp_all

end Sys2Proof.Machine
end

