-- ==== Sys2Proof/Laws/Memory.lean ====
section
/-! SUPPORT. The laws of the memory list: read after write, the canonical form is kept, and it is canonical. -/

namespace Sys2Proof.Machine

@[simp] theorem Memory.read_nil (a : Nat) : Memory.read [] a = 0 := rfl

theorem Memory.read_consCell_same {m : Memory} {a : Nat} {v : Byte} (h : v = 0 → m.read a = 0) :
    (Memory.consCell a v m).read a = v := by
  unfold Memory.consCell
  split
  · next hv => rw [h hv, hv]
  · simp [Memory.read]

theorem Memory.read_consCell_ne {m : Memory} {a b : Nat} {v : Byte} (h : b ≠ a) :
    (Memory.consCell a v m).read b = m.read b := by
  unfold Memory.consCell
  split
  · rfl
  · simp [Memory.read, h.symm]

/-- A write leaves every other address alone (R31). -/
theorem Memory.read_write_ne (m : Memory) {a b : Nat} (v : Byte) (h : b ≠ a) : (m.write a v).read b = m.read b := by
  induction m with
  | nil => exact Memory.read_consCell_ne h
  | cons c m ih =>
    obtain ⟨k, w⟩ := c
    simp only [Memory.write]
    split
    · exact Memory.read_consCell_ne h
    · split
      · next hak => subst hak; rw [Memory.read_consCell_ne h]; simp [Memory.read, h.symm]
      · simp only [Memory.read, ih]

theorem Memory.read_of_lt {m : Memory} {a : Nat} (h : ∀ c ∈ m, a < c.1) : m.read a = 0 := by
  induction m with
  | nil => rfl
  | cons c m ih =>
    have h0 := h c (by simp)
    have : c.1 ≠ a := by omega
    simp only [Memory.read, this, if_false]
    exact ih fun d hd => h d (List.mem_cons_of_mem _ hd)

/-- What was written is read back (R31), in a memory in canonical form. -/
theorem Memory.read_write_same {m : Memory} (hm : m.wf) (a : Nat) (v : Byte) : (m.write a v).read a = v := by
  obtain ⟨hp, -⟩ := hm
  induction m with
  | nil => exact Memory.read_consCell_same fun _ => rfl
  | cons c m ih =>
    obtain ⟨k, w⟩ := c
    rw [List.pairwise_cons] at hp
    simp only [Memory.write]
    split
    · next hlt =>
      refine Memory.read_consCell_same fun _ => Memory.read_of_lt ?_
      intro c hc
      rcases List.mem_cons.1 hc with rfl | hc
      · exact hlt
      · exact lt_trans hlt (hp.1 c hc)
    · split
      · next hak => subst hak; exact Memory.read_consCell_same fun _ => Memory.read_of_lt hp.1
      · next hne =>
        have : k ≠ a := fun e => hne e.symm
        simp only [Memory.read, this, if_false]
        exact ih hp.2

theorem Memory.mem_consCell {m : Memory} {a : Nat} {v : Byte} {c : Host.Cell} (h : c ∈ Memory.consCell a v m) :
    c = (a, v) ∧ v ≠ 0 ∨ c ∈ m := by
  unfold Memory.consCell at h
  split at h
  · exact .inr h
  · next hv => rcases List.mem_cons.1 h with h | h
               · exact .inl ⟨h, hv⟩
               · exact .inr h

/-- Every entry of a written memory is the new cell or an old entry at another address. -/
theorem Memory.mem_write {m : Memory} {a : Nat} {v : Byte} {c : Host.Cell} (h : c ∈ m.write a v) :
    c = (a, v) ∧ v ≠ 0 ∨ c ∈ m := by
  induction m with
  | nil => exact Memory.mem_consCell h
  | cons d m ih =>
    simp only [Memory.write] at h
    split at h
    · exact Memory.mem_consCell h
    · split at h
      · exact (Memory.mem_consCell h).imp_right (List.mem_cons_of_mem _)
      · rcases List.mem_cons.1 h with rfl | h
        · exact .inr (by simp)
        · exact (ih h).imp_right (List.mem_cons_of_mem _)

theorem Memory.pairwise_consCell {m : Memory} {a : Nat} {v : Byte} (hm : m.Pairwise fun c d => c.1 < d.1)
    (h : ∀ c ∈ m, a < c.1) : (Memory.consCell a v m).Pairwise fun c d => c.1 < d.1 := by
  unfold Memory.consCell
  split
  · exact hm
  · exact List.pairwise_cons.2 ⟨h, hm⟩

/-- A write inside the memory keeps the canonical form. -/
theorem Memory.write_wf {m : Memory} (hm : m.wf) {a : Nat} (ha : a < 256) (v : Byte) : (m.write a v).wf := by
  constructor
  · have hp := hm.1
    clear hm
    induction m with
    | nil => exact Memory.pairwise_consCell hp (by simp)
    | cons d m ih =>
      obtain ⟨k, w⟩ := d
      have hp' := List.pairwise_cons.1 hp
      simp only [Memory.write]
      split
      · next hlt =>
        refine Memory.pairwise_consCell hp fun c hc => ?_
        rcases List.mem_cons.1 hc with rfl | hc
        · exact hlt
        · exact lt_trans hlt (hp'.1 c hc)
      · split
        · next hak => subst hak; exact Memory.pairwise_consCell hp'.2 hp'.1
        · refine List.pairwise_cons.2 ⟨fun c hc => ?_, ih hp'.2⟩
          rcases Memory.mem_write hc with ⟨rfl, -⟩ | hc
          · show k < a; omega
          · exact hp'.1 c hc
  · intro c hc
    rcases Memory.mem_write hc with ⟨rfl, hv⟩ | hc
    · exact ⟨ha, hv⟩
    · exact hm.2 c hc

/-- The loader keeps the canonical form: it writes inside the memory only. -/
theorem Memory.load_wf {m : Memory} (hm : m.wf) (a : Nat) (bs : List Byte) : (m.load a bs).wf := by
  induction bs generalizing m a with
  | nil => exact hm
  | cons b bs ih =>
    simp only [Memory.load]
    apply ih
    split
    · next h => exact Memory.write_wf hm (Nat.lt_succ_of_le h) b
    · exact hm

/-- The loader leaves alone every address below where it starts. -/
theorem Memory.read_load_below (m : Memory) {a b : Nat} (bs : List Byte) (h : b < a) : (m.load a bs).read b = m.read b := by
  induction bs generalizing m a with
  | nil => rfl
  | cons c bs ih =>
    simp only [Memory.load]
    rw [ih _ (by omega)]
    split
    · exact Memory.read_write_ne _ _ (by omega)
    · rfl

/-- The loader leaves alone every address past the last byte it writes. -/
theorem Memory.read_load_above (m : Memory) {a b : Nat} (bs : List Byte) (h : a + bs.length ≤ b) :
    (m.load a bs).read b = m.read b := by
  induction bs generalizing m a with
  | nil => rfl
  | cons c bs ih =>
    simp only [List.length_cons] at h
    simp only [Memory.load]
    rw [ih _ (by omega)]
    split
    · exact Memory.read_write_ne _ _ (by omega)
    · rfl

/-- The loader puts byte `i` at `a + i`, as long as that is a cell of the memory. -/
theorem Memory.read_load {m : Memory} (hm : m.wf) (a : Nat) (bs : List Byte) {i : Nat} (hi : i < bs.length)
    (ha : a + i ≤ 255) : (m.load a bs).read (a + i) = bs[i] := by
  induction bs generalizing m a i with
  | nil => simp at hi
  | cons c bs ih =>
    have hle : a ≤ 255 := by omega
    simp only [Memory.load, hle, if_true]
    cases i with
    | zero => rw [Memory.read_load_below _ _ (by omega)]; exact Memory.read_write_same hm _ _
    | succ i =>
      have := ih (Memory.write_wf hm (Nat.lt_succ_of_le hle) c) (a + 1) (i := i) (by simpa using hi) (by omega)
      simpa [Nat.add_assoc, Nat.add_comm 1] using this

/-! ### Memory of the state -/

@[simp] theorem State.memWrite_memRead_ne (s : State) {a b : Nat} (v : Byte) (h : b ≠ a) :
    (s.memWrite a v).memRead b = s.memRead b := Memory.read_write_ne _ _ h

theorem State.memWrite_memRead_same {s : State} (h : s.mem.wf) (a : Nat) (v : Byte) :
    (s.memWrite a v).memRead a = v := Memory.read_write_same h _ _

@[simp] theorem State.storeTop_memRead_ne (s : State) {b : Nat} (v : Byte) (h : b ≠ s.stackAddr) :
    (s.storeTop v).memRead b = s.memRead b := Memory.read_write_ne _ _ h

theorem State.storeTop_memRead_same {s : State} (h : s.mem.wf) (v : Byte) :
    (s.storeTop v).memRead s.stackAddr = v := Memory.read_write_same h _ _

theorem State.stackAddr_lt (s : State) : s.stackAddr < 256 := (s.reg Config.spIndex).isLt

theorem State.storeTop_wf {s : State} (h : s.mem.wf) (v : Byte) : (s.storeTop v).mem.wf :=
  Memory.write_wf h s.stackAddr_lt v

theorem State.reset_wf : State.reset.mem.wf := ⟨.nil, by simp [State.reset]⟩

@[simp] theorem State.reset_memRead (a : Nat) : State.reset.memRead a = 0 := rfl

end Sys2Proof.Machine
end

