-- ==== Sys2Proof/Laws/Operands.lean ====
section
/-! SUPPORT. What fetching a byte and turning it into a register index can do. -/

namespace Sys2Proof.Machine

theorem fetchByte_of_le {s : State} {a : Nat} (h : a ≤ 255) : fetchByte s a = .ok (s.memRead a) := by
  have : ¬ 255 < a := by omega
  simp [fetchByte, this]

theorem fetchByte_of_gt {s : State} {a : Nat} (h : 255 < a) : fetchByte s a = .error (.addressOutOfRange a) := by
  simp [fetchByte, h]

@[simp] theorem regIndex_regByte (r : Fin 8) : regIndex (regByte r) = .ok r := by
  have h : (regByte r).toNat ≤ 7 := by have := regByte_toNat r; omega
  simp [regIndex, regByte_toNat, Nat.le_of_lt_succ r.isLt]

theorem regIndex_of_gt {b : Byte} (h : 7 < b.toNat) : regIndex b = .error (.registerIndexOutOfRange b) := by
  have : ¬ b.toNat ≤ 7 := by omega
  simp [regIndex, this]

@[simp] theorem withReg_regByte (r : Fin 8) (s : State) (f : Fin 8 → Result) : withReg (regByte r) s f = f r := by
  simp [withReg]

theorem withReg_of_gt {a : Byte} (h : 7 < a.toNat) (s : State) (f : Fin 8 → Result) :
    withReg a s f = .next (s.raise (.registerIndexOutOfRange a)) := by
  simp [withReg, regIndex_of_gt h]

@[simp] theorem withRegs_regByte (r q : Fin 8) (s : State) (f : Fin 8 → Fin 8 → Result) :
    withRegs (regByte r) (regByte q) s f = f r q := by
  simp [withRegs]

theorem withRegs_of_gt_left {a : Byte} (h : 7 < a.toNat) (b : Byte) (s : State) (f : Fin 8 → Fin 8 → Result) :
    withRegs a b s f = .next (s.raise (.registerIndexOutOfRange a)) := withReg_of_gt h s _

theorem withRegs_of_gt_right (r : Fin 8) {b : Byte} (h : 7 < b.toNat) (s : State) (f : Fin 8 → Fin 8 → Result) :
    withRegs (regByte r) b s f = .next (s.raise (.registerIndexOutOfRange b)) := by
  simp [withRegs, withReg_of_gt h]

/-- Every operand byte names a register or is out of range. -/
theorem regByte_or_gt (a : Byte) : (∃ r : Fin 8, a = regByte r) ∨ 7 < a.toNat := by
  rcases Nat.lt_or_ge 7 a.toNat with h | h
  · exact .inr h
  · exact .inl (exists_regByte h)

/-- What an instruction with one register operand can do. -/
theorem withReg_cases (a : Byte) (s : State) (f : Fin 8 → Result) :
    (∃ r : Fin 8, a = regByte r ∧ withReg a s f = f r) ∨
    (7 < a.toNat ∧ withReg a s f = .next (s.raise (.registerIndexOutOfRange a))) := by
  rcases regByte_or_gt a with ⟨r, rfl⟩ | h
  · exact .inl ⟨r, rfl, by simp⟩
  · exact .inr ⟨h, withReg_of_gt h s f⟩

/-- What an instruction with two register operands can do. -/
theorem withRegs_cases (a b : Byte) (s : State) (f : Fin 8 → Fin 8 → Result) :
    (∃ r q : Fin 8, a = regByte r ∧ b = regByte q ∧ withRegs a b s f = f r q) ∨
    (7 < a.toNat ∧ withRegs a b s f = .next (s.raise (.registerIndexOutOfRange a))) ∨
    (a.toNat ≤ 7 ∧ 7 < b.toNat ∧ withRegs a b s f = .next (s.raise (.registerIndexOutOfRange b))) := by
  rcases regByte_or_gt a with ⟨r, rfl⟩ | h
  · rcases regByte_or_gt b with ⟨q, rfl⟩ | h
    · exact .inl ⟨r, q, rfl, rfl, by simp⟩
    · exact .inr (.inr ⟨by rw [regByte_toNat]; omega, h, withRegs_of_gt_right r h s f⟩)
  · exact .inr (.inl ⟨h, withRegs_of_gt_left h b s f⟩)

/-- A byte widened to 9 bits with zeros. -/
theorem setWidth_nine (b : Byte) : b.setWidth 9 = BitVec.ofNat 9 b.toNat := by
  apply BitVec.eq_of_toNat_eq
  simp

/-- Raising a fault is the change of run state and record that R104 describes. -/
theorem State.raise_eq (s : State) (t : Trap) :
    s.raise t = { s with run := .faulted, faultCause := t.cause, faultInfo := t.info } := rfl

theorem State.raise_register (s : State) (b : Byte) :
    s.raise (.registerIndexOutOfRange b) = s.faultedWith .registerIndexOutOfRange b.toNat := by
  simp only [State.raise, State.faultedWith, Trap.cause, Trap.info, setWidth_nine]

theorem State.raise_address (s : State) (a : Nat) :
    s.raise (.addressOutOfRange a) = s.faultedWith .addressOutOfRange a := rfl

theorem State.raise_illegal (s : State) (op : Byte) :
    s.raise (.illegalInstruction op) = s.faultedWith .illegalInstruction op.toNat := by
  simp only [State.raise, State.faultedWith, Trap.cause, Trap.info, setWidth_nine]

end Sys2Proof.Machine
end

