-- ==== Sys2Proof/Laws/Exec.lean ====
section
/-! SUPPORT. One lemma per meaning and per form: what `exec` answers for register operands in range, written over the named
operations, and for operands out of range. The provers cite these instead of unfolding `exec`. -/

namespace Sys2Proof.Machine

section
variable (s : State) (r q : Fin 8) (imm : Byte)

theorem exec_ldi : exec (.ldi (regByte r) imm) s = .next ((s.setReg r imm).advance 3) := withReg_regByte r s _
theorem exec_prn : exec (.prn (regByte r)) s = .next ((s.emit (s.reg r)).advance 2) := withReg_regByte r s _
theorem exec_mul : exec (.mul (regByte r) (regByte q)) s = .next ((s.setReg r (s.reg r * s.reg q)).advance 3) :=
  withRegs_regByte r q s _
theorem exec_add : exec (.add (regByte r) (regByte q)) s = .next ((s.setReg r (s.reg r + s.reg q)).advance 3) :=
  withRegs_regByte r q s _
theorem exec_push :
    exec (.push (regByte r)) s = .next ((s.decSp.storeTop (s.decSp.reg r)).advance 2) := withReg_regByte r s _
theorem exec_pop : exec (.pop (regByte r)) s = .next ((s.setReg r s.loadTop).incSp.advance 2) := withReg_regByte r s _
theorem exec_ret : exec .ret s = .next (s.incSp.jump s.loadTop) := rfl
theorem exec_cmp :
    exec (.cmp (regByte r) (regByte q)) s = .next ((s.setFlag (s.reg r == s.reg q)).advance 3) :=
  withRegs_regByte r q s _
theorem exec_jmp : exec (.jmp (regByte r)) s = .next (s.jump (s.reg r)) := withReg_regByte r s _
theorem exec_jeq : exec (.jeq (regByte r)) s = .next (if s.fl then s.jump (s.reg r) else s.advance 2) :=
  withReg_regByte r s _
theorem exec_jne : exec (.jne (regByte r)) s = .next (if s.fl then s.advance 2 else s.jump (s.reg r)) := by
  refine (withReg_regByte r s _).trans ?_
  cases h : s.fl <;> simp [branchIf, State.condNotEqual, h]
theorem exec_hlt : exec .hlt s = .next (s.advance 1).halt := rfl

theorem exec_call (h : s.pc.toNat ≤ 253) :
    exec (.call (regByte r)) s =
      .next ((s.decSp.storeTop (BitVec.ofNat 8 (s.pc.toNat + 2))).jump (s.decSp.reg r)) := by
  have : ¬ 255 < s.pc.toNat + 2 := by omega
  exact (withReg_regByte r s _).trans (by simp [this])

theorem exec_call_top (h : 254 ≤ s.pc.toNat) :
    exec (.call (regByte r)) s = .next (s.raise (.addressOutOfRange (s.pc.toNat + 2))) := by
  have : 255 < s.pc.toNat + 2 := by omega
  exact (withReg_regByte r s _).trans (by simp [this])

end

/-- Every instruction answers a next state, whatever its operands and the state: no meaning stops. -/
theorem exec_next (i : Instr) (s : State) : ∃ t, exec i s = .next t := by
  have one (a : Byte) (f : Fin 8 → Result) (hf : ∀ r, ∃ t, f r = .next t) : ∃ t, withReg a s f = .next t := by
    rcases withReg_cases a s f with ⟨r, -, h⟩ | ⟨-, h⟩
    · rw [h]; exact hf r
    · exact ⟨_, h⟩
  cases i with
  | call a =>
    refine one a _ fun r => ?_
    split <;> exact ⟨_, rfl⟩
  | ret => exact ⟨_, rfl⟩
  | hlt => exact ⟨_, rfl⟩
  | mul a b => exact one a _ fun r => one b _ fun q => ⟨_, rfl⟩
  | add a b => exact one a _ fun r => one b _ fun q => ⟨_, rfl⟩
  | cmp a b => exact one a _ fun r => one b _ fun q => ⟨_, rfl⟩
  | _ => exact one _ _ fun r => ⟨_, rfl⟩

/-- The effect of a well-formed instruction, as a state over the named operations. -/
inductive Effect (s : State) : Instr → State → Prop
  | ldi (r : Fin 8) (imm : Byte) : Effect s (.ldi (regByte r) imm) ((s.setReg r imm).advance 3)
  | prn (r : Fin 8) : Effect s (.prn (regByte r)) ((s.emit (s.reg r)).advance 2)
  | mul (r q : Fin 8) : Effect s (.mul (regByte r) (regByte q)) ((s.setReg r (s.reg r * s.reg q)).advance 3)
  | add (r q : Fin 8) : Effect s (.add (regByte r) (regByte q)) ((s.setReg r (s.reg r + s.reg q)).advance 3)
  | push (r : Fin 8) : Effect s (.push (regByte r)) ((s.decSp.storeTop (s.decSp.reg r)).advance 2)
  | pop (r : Fin 8) : Effect s (.pop (regByte r)) ((s.setReg r s.loadTop).incSp.advance 2)
  | call (r : Fin 8) (h : s.pc.toNat ≤ 253) :
      Effect s (.call (regByte r)) ((s.decSp.storeTop (BitVec.ofNat 8 (s.pc.toNat + 2))).jump (s.decSp.reg r))
  | ret : Effect s .ret (s.incSp.jump s.loadTop)
  | cmp (r q : Fin 8) : Effect s (.cmp (regByte r) (regByte q)) ((s.setFlag (s.reg r == s.reg q)).advance 3)
  | jmp (r : Fin 8) : Effect s (.jmp (regByte r)) (s.jump (s.reg r))
  | jeq (r : Fin 8) : Effect s (.jeq (regByte r)) (if s.fl then s.jump (s.reg r) else s.advance 2)
  | jne (r : Fin 8) : Effect s (.jne (regByte r)) (if s.fl then s.advance 2 else s.jump (s.reg r))
  | hlt : Effect s .hlt (s.advance 1).halt

/-- All `exec` can do: the effect of the instruction, RegisterIndexOutOfRange for its first bad register byte, or, for CALL,
AddressOutOfRange for the return address. -/
theorem exec_cases (i : Instr) (s : State) :
    (∃ t, exec i s = .next t ∧ Effect s i t) ∨
    (∃ b, i.wf = false ∧ 7 < b.toNat ∧ ((encode i)[1]? = some b ∨ (encode i)[2]? = some b ∧ ∀ a imm, i ≠ .ldi a imm) ∧
      exec i s = .next (s.raise (.registerIndexOutOfRange b))) ∨
    (∃ r, i = .call (regByte r) ∧ 254 ≤ s.pc.toNat ∧ exec i s = .next (s.raise (.addressOutOfRange (s.pc.toNat + 2)))) := by
  have hb {a : Byte} (h : 7 < a.toNat) : namesRegister a = false := by simpa [namesRegister] using h
  cases i with
  | ret => exact .inl ⟨_, exec_ret s, .ret⟩
  | hlt => exact .inl ⟨_, exec_hlt s, .hlt⟩
  | ldi a imm =>
    rcases regByte_or_gt a with ⟨r, rfl⟩ | h
    · exact .inl ⟨_, exec_ldi s r imm, .ldi r imm⟩
    · exact .inr (.inl ⟨a, hb h, h, .inl rfl, withReg_of_gt h s _⟩)
  | prn a =>
    rcases regByte_or_gt a with ⟨r, rfl⟩ | h
    · exact .inl ⟨_, exec_prn s r, .prn r⟩
    · exact .inr (.inl ⟨a, hb h, h, .inl rfl, withReg_of_gt h s _⟩)
  | push a =>
    rcases regByte_or_gt a with ⟨r, rfl⟩ | h
    · exact .inl ⟨_, exec_push s r, .push r⟩
    · exact .inr (.inl ⟨a, hb h, h, .inl rfl, withReg_of_gt h s _⟩)
  | pop a =>
    rcases regByte_or_gt a with ⟨r, rfl⟩ | h
    · exact .inl ⟨_, exec_pop s r, .pop r⟩
    · exact .inr (.inl ⟨a, hb h, h, .inl rfl, withReg_of_gt h s _⟩)
  | jmp a =>
    rcases regByte_or_gt a with ⟨r, rfl⟩ | h
    · exact .inl ⟨_, exec_jmp s r, .jmp r⟩
    · exact .inr (.inl ⟨a, hb h, h, .inl rfl, withReg_of_gt h s _⟩)
  | jeq a =>
    rcases regByte_or_gt a with ⟨r, rfl⟩ | h
    · exact .inl ⟨_, exec_jeq s r, .jeq r⟩
    · exact .inr (.inl ⟨a, hb h, h, .inl rfl, withReg_of_gt h s _⟩)
  | jne a =>
    rcases regByte_or_gt a with ⟨r, rfl⟩ | h
    · exact .inl ⟨_, exec_jne s r, .jne r⟩
    · exact .inr (.inl ⟨a, hb h, h, .inl rfl, withReg_of_gt h s _⟩)
  | call a =>
    rcases regByte_or_gt a with ⟨r, rfl⟩ | h
    · rcases Nat.lt_or_ge 253 s.pc.toNat with hp | hp
      · exact .inr (.inr ⟨r, rfl, hp, exec_call_top s r hp⟩)
      · exact .inl ⟨_, exec_call s r hp, .call r hp⟩
    · exact .inr (.inl ⟨a, hb h, h, .inl rfl, withReg_of_gt h s _⟩)
  | mul a b =>
    rcases regByte_or_gt a with ⟨r, rfl⟩ | h
    · rcases regByte_or_gt b with ⟨q, rfl⟩ | h
      · exact .inl ⟨_, exec_mul s r q, .mul r q⟩
      · exact .inr (.inl ⟨b, by simp [Instr.wf, hb h], h, .inr ⟨rfl, by simp⟩, withRegs_of_gt_right r h s _⟩)
    · exact .inr (.inl ⟨a, by simp [Instr.wf, hb h], h, .inl rfl, withRegs_of_gt_left h b s _⟩)
  | add a b =>
    rcases regByte_or_gt a with ⟨r, rfl⟩ | h
    · rcases regByte_or_gt b with ⟨q, rfl⟩ | h
      · exact .inl ⟨_, exec_add s r q, .add r q⟩
      · exact .inr (.inl ⟨b, by simp [Instr.wf, hb h], h, .inr ⟨rfl, by simp⟩, withRegs_of_gt_right r h s _⟩)
    · exact .inr (.inl ⟨a, by simp [Instr.wf, hb h], h, .inl rfl, withRegs_of_gt_left h b s _⟩)
  | cmp a b =>
    rcases regByte_or_gt a with ⟨r, rfl⟩ | h
    · rcases regByte_or_gt b with ⟨q, rfl⟩ | h
      · exact .inl ⟨_, exec_cmp s r q, .cmp r q⟩
      · exact .inr (.inl ⟨b, by simp [Instr.wf, hb h], h, .inr ⟨rfl, by simp⟩, withRegs_of_gt_right r h s _⟩)
    · exact .inr (.inl ⟨a, by simp [Instr.wf, hb h], h, .inl rfl, withRegs_of_gt_left h b s _⟩)

end Sys2Proof.Machine
end

