-- ==== Sys2Proof/Laws/PerInstr.lean ====
section
/-! SUPPORT. Statements for all instructions, one lemma per constructor. -/

namespace Sys2Proof.Laws

/-- The decoder gives an encoded instruction back and leaves the bytes after it. -/
def DecodeEncode.Statement (i : Instr) : Prop := ∀ rest : List Byte, decode (encode i ++ rest) = .ok (i, rest)

theorem DecodeEncode.ldi (a imm : Byte) : DecodeEncode.Statement (.ldi a imm) := decode_encode_append _
theorem DecodeEncode.prn (a : Byte) : DecodeEncode.Statement (.prn a) := decode_encode_append _
theorem DecodeEncode.mul (a b : Byte) : DecodeEncode.Statement (.mul a b) := decode_encode_append _
theorem DecodeEncode.add (a b : Byte) : DecodeEncode.Statement (.add a b) := decode_encode_append _
theorem DecodeEncode.push (a : Byte) : DecodeEncode.Statement (.push a) := decode_encode_append _
theorem DecodeEncode.pop (a : Byte) : DecodeEncode.Statement (.pop a) := decode_encode_append _
theorem DecodeEncode.call (a : Byte) : DecodeEncode.Statement (.call a) := decode_encode_append _
theorem DecodeEncode.ret : DecodeEncode.Statement .ret := decode_encode_append _
theorem DecodeEncode.cmp (a b : Byte) : DecodeEncode.Statement (.cmp a b) := decode_encode_append _
theorem DecodeEncode.jmp (a : Byte) : DecodeEncode.Statement (.jmp a) := decode_encode_append _
theorem DecodeEncode.jeq (a : Byte) : DecodeEncode.Statement (.jeq a) := decode_encode_append _
theorem DecodeEncode.jne (a : Byte) : DecodeEncode.Statement (.jne a) := decode_encode_append _
theorem DecodeEncode.hlt : DecodeEncode.Statement .hlt := decode_encode_append _

/-- The regularity of the 13 patterns: bits 7..6 of the opcode are the number of operand bytes (R51). -/
def OpcodeLength.Statement (i : Instr) : Prop :=
  ∃ op rest, encode i = op :: rest ∧ op.toNat / 64 = rest.length ∧ rest.length + 1 = i.length

theorem OpcodeLength.ldi (a imm : Byte) : OpcodeLength.Statement (.ldi a imm) := ⟨_, _, rfl, by simp, rfl⟩
theorem OpcodeLength.prn (a : Byte) : OpcodeLength.Statement (.prn a) := ⟨_, _, rfl, by simp, rfl⟩
theorem OpcodeLength.mul (a b : Byte) : OpcodeLength.Statement (.mul a b) := ⟨_, _, rfl, by simp, rfl⟩
theorem OpcodeLength.add (a b : Byte) : OpcodeLength.Statement (.add a b) := ⟨_, _, rfl, by simp, rfl⟩
theorem OpcodeLength.push (a : Byte) : OpcodeLength.Statement (.push a) := ⟨_, _, rfl, by simp, rfl⟩
theorem OpcodeLength.pop (a : Byte) : OpcodeLength.Statement (.pop a) := ⟨_, _, rfl, by simp, rfl⟩
theorem OpcodeLength.call (a : Byte) : OpcodeLength.Statement (.call a) := ⟨_, _, rfl, by simp, rfl⟩
theorem OpcodeLength.ret : OpcodeLength.Statement .ret := ⟨_, _, rfl, by simp, rfl⟩
theorem OpcodeLength.cmp (a b : Byte) : OpcodeLength.Statement (.cmp a b) := ⟨_, _, rfl, by simp, rfl⟩
theorem OpcodeLength.jmp (a : Byte) : OpcodeLength.Statement (.jmp a) := ⟨_, _, rfl, by simp, rfl⟩
theorem OpcodeLength.jeq (a : Byte) : OpcodeLength.Statement (.jeq a) := ⟨_, _, rfl, by simp, rfl⟩
theorem OpcodeLength.jne (a : Byte) : OpcodeLength.Statement (.jne a) := ⟨_, _, rfl, by simp, rfl⟩
theorem OpcodeLength.hlt : OpcodeLength.Statement .hlt := ⟨_, _, rfl, by simp, rfl⟩

end Sys2Proof.Laws
end

