-- ==== Sys2Proof/Laws/Step.lean ====
section
/-! SUPPORT. What one step can do, said once. -/

namespace Sys2Proof.Machine

/-- A core that is not running stays as it is. -/
theorem step_stopped {s : State} (h : s.run ≠ .running) : step s = .next s := by
  unfold step
  split
  · next hr => exact absurd hr h
  · rfl
  · rfl

/-- A running core whose fetch delivers an instruction executes it. -/
theorem step_of_fetch {s : State} {i : Instr} (hr : s.run = .running) (hf : fetchInstr s = .ok i) : step s = exec i s := by
  simp [step, hr, hf]

/-- A running core whose fetch fails raises that fault. -/
theorem step_of_fetch_error {s : State} {t : Trap} (hr : s.run = .running) (hf : fetchInstr s = .error t) :
    step s = .next (s.raise t) := by
  simp [step, hr, hf]

/-- The fetch of the instruction at `pc`, once the opcode byte is known to lie inside the memory. -/
theorem fetchInstr_of_le {s : State} (h : s.pc.toNat ≤ 255) :
    fetchInstr s = decodeWith .illegalInstruction (fetchOperand s) (s.memRead s.pc.toNat) := by
  simp [fetchInstr, fetchOpcode, fetchByte_of_le h]

/-- A `pc` above 255 faults at the opcode fetch. -/
theorem fetchInstr_of_gt {s : State} (h : 255 < s.pc.toNat) :
    fetchInstr s = .error (.addressOutOfRange s.pc.toNat) := by
  simp [fetchInstr, fetchOpcode, fetchByte_of_gt h]

theorem fetchOperand_of_le {s : State} {k : Nat} (h : s.pc.toNat + k ≤ 255) :
    fetchOperand s k = .ok (s.memRead (s.pc.toNat + k)) := fetchByte_of_le h

theorem fetchOperand_of_gt {s : State} {k : Nat} (h : 255 < s.pc.toNat + k) :
    fetchOperand s k = .error (.addressOutOfRange (s.pc.toNat + k)) := fetchByte_of_gt h

/-- An operand that was fetched lies inside the memory and is the byte there. -/
theorem fetchOperand_ok {s : State} {k : Nat} {b : Byte} (h : fetchOperand s k = .ok b) :
    s.pc.toNat + k ≤ 255 ∧ b = s.memRead (s.pc.toNat + k) := by
  rcases Nat.lt_or_ge 255 (s.pc.toNat + k) with hk | hk
  · rw [fetchOperand_of_gt hk] at h; cases h
  · rw [fetchOperand_of_le hk] at h; cases h; exact ⟨hk, rfl⟩

/-- An instruction that was fetched is the one whose bytes stand at `pc`, all of them inside the memory. -/
theorem fetchInstr_ok {s : State} {i : Instr} (h : fetchInstr s = .ok i) :
    s.pc.toNat + i.length ≤ 256 ∧ ∀ k (hk : k < (encode i).length), s.memRead (s.pc.toNat + k) = (encode i)[k] := by
  rcases Nat.lt_or_ge 255 s.pc.toNat with hp | hp
  · rw [fetchInstr_of_gt hp] at h; cases h
  rw [fetchInstr_of_le hp] at h
  rcases decodeWith_cases h with hz | ⟨make, a, hr, ha, rfl⟩ | ⟨make, a, b, hr, ha, hb, rfl⟩
  · have := formatOf_some hz
    simp only [opcodeTable, List.mem_cons, OpcodeRow.mk.injEq, reduceCtorEq, and_false, false_or, Format.z.injEq,
      List.not_mem_nil, or_false] at this
    rcases this with ⟨hm, rfl⟩ | ⟨hm, rfl⟩ <;>
    · refine ⟨by simp only [Instr.length]; omega, fun k hk => ?_⟩
      have : k = 0 := by simp [encode] at hk; exact hk
      subst this; exact hm
  · obtain ⟨h1, ha⟩ := fetchOperand_ok ha
    have := formatOf_some hr
    simp only [opcodeTable, List.mem_cons, OpcodeRow.mk.injEq, reduceCtorEq, and_false, false_or, Format.r.injEq,
      List.not_mem_nil, or_false] at this
    rcases this with ⟨hm, rfl⟩ | ⟨hm, rfl⟩ | ⟨hm, rfl⟩ | ⟨hm, rfl⟩ | ⟨hm, rfl⟩ | ⟨hm, rfl⟩ | ⟨hm, rfl⟩ <;>
    · refine ⟨by simp only [Instr.length]; omega, fun k hk => ?_⟩
      have : k = 0 ∨ k = 1 := by simp [encode] at hk; omega
      rcases this with rfl | rfl
      · exact hm
      · exact ha.symm
  · obtain ⟨h1, ha⟩ := fetchOperand_ok ha
    obtain ⟨h2, hb⟩ := fetchOperand_ok hb
    have : (⟨s.memRead s.pc.toNat, .rr make⟩ : OpcodeRow) ∈ opcodeTable ∨
        (⟨s.memRead s.pc.toNat, .ri make⟩ : OpcodeRow) ∈ opcodeTable := hr.imp formatOf_some formatOf_some
    simp only [opcodeTable, List.mem_cons, OpcodeRow.mk.injEq, reduceCtorEq, and_false, false_or, Format.rr.injEq,
      Format.ri.injEq, List.not_mem_nil, or_false] at this
    rcases this with (⟨hm, rfl⟩ | ⟨hm, rfl⟩ | ⟨hm, rfl⟩) | ⟨hm, rfl⟩ <;>
    · refine ⟨by simp only [Instr.length]; omega, fun k hk => ?_⟩
      have : k = 0 ∨ k = 1 ∨ k = 2 := by simp [encode] at hk; omega
      rcases this with rfl | rfl | rfl
      · exact hm
      · exact ha.symm
      · exact hb.symm

/-- The instruction whose bytes stand at `pc`, all of them inside the memory, is the one that is fetched. -/
theorem fetchInstr_of_bytes {s : State} {i : Instr} (hlen : s.pc.toNat + (encode i).length ≤ 256)
    (h : ∀ k (hk : k < (encode i).length), s.memRead (s.pc.toNat + k) = (encode i)[k]) : fetchInstr s = .ok i := by
  have h0 : s.memRead s.pc.toNat = (encode i)[0]'(by cases i <;> simp [encode]) := h 0 _
  cases i
  case ret | hlt => rw [fetchInstr_of_le (by simp [encode] at hlen; omega), h0]; rfl
  case ldi | add | mul | cmp =>
    have h1 := h 1 (by simp [encode])
    have h2 := h 2 (by simp [encode])
    simp only [encode, List.length_cons, List.length_nil] at hlen
    rw [fetchInstr_of_le (by omega), h0]
    simp only [encode, List.getElem_cons_zero, decodeWith, fetchOperand_of_le (show s.pc.toNat + 1 ≤ 255 by omega),
      fetchOperand_of_le (show s.pc.toNat + 2 ≤ 255 by omega), h1, h2]
    rfl
  all_goals
    have h1 := h 1 (by simp [encode])
    simp only [encode, List.length_cons, List.length_nil] at hlen
    rw [fetchInstr_of_le (by omega), h0]
    simp only [encode, List.getElem_cons_zero, decodeWith, fetchOperand_of_le (show s.pc.toNat + 1 ≤ 255 by omega), h1]
    rfl

/-- All a step of a running core can do: raise the fault of its fetch, or execute the instruction whose bytes stand at `pc`. -/
theorem step_cases {s : State} (hr : s.run = .running) :
    (∃ t, fetchInstr s = .error t ∧ step s = .next (s.raise t)) ∨
    (∃ i, fetchInstr s = .ok i ∧ step s = exec i s) := by
  cases h : fetchInstr s with
  | error t => exact .inl ⟨t, rfl, step_of_fetch_error hr h⟩
  | ok i => exact .inr ⟨i, rfl, step_of_fetch hr h⟩

end Sys2Proof.Machine
end

