-- ==== Sys2Proof/Tests/Slice0.lean ====
section
/-! SUPPORT. Tests: ill-formed instructions are refused, words of the spec's opcode map decode, the vectors of
spec/95_test_vectors.md (V<n>) come out of single steps, and a witness for the hypotheses of each statement. Expected
values are the spec's. -/

namespace Sys2Proof.Tests

open Sys2Proof.Machine

/-- The state with `pc` set and bytes placed from there on. -/
def place (s : State) (pc : Nat) (bytes : List Byte) : State :=
  { s with pc := BitVec.ofNat 9 pc, mem := s.mem.load pc bytes }

/-- The state with registers set. -/
def regs (s : State) (vals : List (Fin 8 × Byte)) : State := vals.foldl (fun s p => s.setReg p.1 p.2) s

/-- The state with one memory cell set. -/
def cell (s : State) (addr : Nat) (v : Byte) : State := s.memWrite addr v

/-- The state after one step. -/
def after (s : State) : Option State :=
  match step s with
  | .next t => some t
  | .fault _ => none
  | .refused _ => none

/-- A view of the state after one step. -/
def view {α : Type} (s : State) (f : State → α) : Option α := (after s).map f

/-- The fault record after one step, with `run` and `pc`. -/
def faultView (s : State) : Option (RunState × FaultCause × Nat × Nat) :=
  view s fun t => (t.run, t.faultCause, t.faultInfo.toNat, t.pc.toNat)

/-! ### Well-formedness: one ill-formed term for each check -/

theorem test_wf_ldi : (Instr.ldi 8 0).wf = false := by decide
theorem test_wf_prn : (Instr.prn 8).wf = false := by decide
theorem test_wf_mul_a : (Instr.mul 8 0).wf = false := by decide
theorem test_wf_mul_b : (Instr.mul 0 8).wf = false := by decide
theorem test_wf_add_a : (Instr.add 255 0).wf = false := by decide
theorem test_wf_add_b : (Instr.add 0 255).wf = false := by decide
theorem test_wf_push : (Instr.push 8).wf = false := by decide
theorem test_wf_pop : (Instr.pop 16).wf = false := by decide
theorem test_wf_call : (Instr.call 8).wf = false := by decide
theorem test_wf_cmp_a : (Instr.cmp 8 0).wf = false := by decide
theorem test_wf_cmp_b : (Instr.cmp 0 9).wf = false := by decide
theorem test_wf_jmp : (Instr.jmp 8).wf = false := by decide
theorem test_wf_jeq : (Instr.jeq 9).wf = false := by decide
theorem test_wf_jne : (Instr.jne 128).wf = false := by decide
theorem test_wf_immediate_unchecked : (Instr.ldi 7 255).wf = true := by decide

/-! ### Decoding: words written out from the encodings of R46 and R50 -/

theorem test_decode_ldi : decode [0b10000010, 0b00000000, 0b00001000] = .ok (.ldi 0 8, []) := by decide
theorem test_decode_prn : decode [0b01000111, 0b00000001] = .ok (.prn 1, []) := by decide
theorem test_decode_mul : decode [0b10100010, 0b00000000, 0b00000001] = .ok (.mul 0 1, []) := by decide
theorem test_decode_add : decode [0b10100000, 0b00000010, 0b00000011] = .ok (.add 2 3, []) := by decide
theorem test_decode_push : decode [0b01000101, 0b00000100] = .ok (.push 4, []) := by decide
theorem test_decode_pop : decode [0b01000110, 0b00000101] = .ok (.pop 5, []) := by decide
theorem test_decode_call : decode [0b01010000, 0b00000110] = .ok (.call 6, []) := by decide
theorem test_decode_ret : decode [0b00010001, 0b11111111] = .ok (.ret, [0b11111111]) := by decide
theorem test_decode_cmp : decode [0b10100111, 0b00000111, 0b00000000] = .ok (.cmp 7 0, []) := by decide
theorem test_decode_jmp : decode [0b01010100, 0b00000011] = .ok (.jmp 3, []) := by decide
theorem test_decode_jeq : decode [0b01010101, 0b00000010] = .ok (.jeq 2, []) := by decide
theorem test_decode_jne : decode [0b01010110, 0b00000010] = .ok (.jne 2, []) := by decide
theorem test_decode_hlt : decode [0b00000001] = .ok (.hlt, []) := by decide
/-- R54, V52: the usual encoding of SUB is illegal. -/
theorem test_decode_no_sub : decode [0xA1, 0, 1] = .error (.illegalInstruction 0xA1) := by decide
theorem test_decode_truncated : decode [0x82, 0] = .error (.missingOperand 2) := by decide
/-- The table's bit numbering: the second byte is bits 15..8, bits from nbits up are 0. -/
theorem test_table_word : decodeTableWord 24 0x080382 = some (.ldi 3 8) ∧ decodeTableWord 8 0x080382 = some (.ldi 0 0) := by
  decide
theorem test_fetch_word : after (State.reset.withFetchWord 24 0x080382) =
    some { State.reset.withFetchWord 24 0x080382 with x := #v[0, 0, 0, 8, 0, 0, 0, 0xF4], pc := 3 } := by decide

/-! ### Vectors of spec/95_test_vectors.md, one step each -/

/-- V2. -/
theorem test_add_wraps :
    view (regs (place .reset 0 [0xA0, 0, 1]) [(0, 200), (1, 100)]) (fun t => (t.reg 0, t.reg 1, t.pc, t.fl)) =
      some (44, 100, 3, false) := by decide
/-- V5. -/
theorem test_add_same_register : view (regs (place .reset 0 [0xA0, 2, 2]) [(2, 0x80)]) (·.reg 2) = some 0 := by decide
/-- V9. -/
theorem test_mul_low_byte :
    view (regs (place .reset 0 [0xA2, 0, 1]) [(0, 100), (1, 44)]) (fun t => (t.reg 0, t.pc)) = some (48, 3) := by decide
/-- V13. -/
theorem test_mul_square : view (regs (place .reset 0 [0xA2, 4, 4]) [(4, 15)]) (·.reg 4) = some 225 := by decide
/-- V14. -/
theorem test_cmp_equal :
    view (regs (place .reset 0 [0xA7, 0, 1]) [(0, 5), (1, 5)]) (fun t => (t.fl, t.reg 0, t.pc)) = some (true, 5, 3) := by
  decide
/-- V15. -/
theorem test_cmp_clears :
    view ((regs (place .reset 0 [0xA7, 0, 1]) [(0, 5), (1, 6)]).setFlag true) (·.fl) = some false := by decide
/-- V19: the ALU's SUB, unit level. -/
theorem test_alu_sub_wraps : (alu .sub 0 1 (regs .reset [(0, 5), (1, 6)])).reg 0 = 255 := by decide
/-- V31. -/
theorem test_ldi_unsigned : view (place .reset 0 [0x82, 3, 0xFF]) (·.reg 3) = some 255 := by decide
/-- V32. -/
theorem test_ldi_stack_pointer : view (place .reset 0 [0x82, 7, 0x80]) (fun t => (t.reg 7, t.pc)) = some (0x80, 3) := by decide
/-- V34. -/
theorem test_prn_appends : view (regs (place .reset 9 [0x47, 0]) [(0, 72)]) (fun t => (t.out, t.pc)) = some ([72], 11) := by
  decide
/-- V36, V35: text of 255 and 0. -/
theorem test_prn_text : outText [255, 0] = ['2', '5', '5', '\n', '0', '\n'] := by decide
/-- V23. -/
theorem test_push_wraps :
    view (regs (place .reset 0 [0x45, 0]) [(7, 0), (0, 0x77)]) (fun t => (t.reg 7, t.memRead 0xFF, t.pc)) =
      some (0xFF, 0x77, 2) := by decide
/-- V25. -/
theorem test_push_r7 : view (place .reset 0 [0x45, 7]) (fun t => (t.reg 7, t.memRead 0xF3)) = some (0xF3, 0xF3) := by decide
/-- V24. -/
theorem test_pop_wraps :
    view (cell (regs (place .reset 0 [0x46, 0]) [(7, 0xFF)]) 0xFF 0x77) (fun t => (t.reg 0, t.reg 7, t.pc)) =
      some (0x77, 0x00, 2) := by decide
/-- V26. -/
theorem test_pop_r7 : view (cell (regs (place .reset 0 [0x46, 7]) [(7, 0xF3)]) 0xF3 0x2A) (·.reg 7) = some 0x2B := by decide
/-- V40. -/
theorem test_call :
    view (regs (place .reset 6 [0x50, 1]) [(1, 0x0B)]) (fun t => (t.reg 7, t.memRead 0xF3, t.pc)) =
      some (0xF3, 0x08, 0x0B) := by decide
/-- V42. -/
theorem test_call_r7 : view (place .reset 0 [0x50, 7]) (fun t => (t.reg 7, t.memRead 0xF3, t.pc)) = some (0xF3, 2, 0xF3) := by
  decide
/-- V41. -/
theorem test_ret :
    view (cell (regs (place .reset 0x0E [0x11]) [(7, 0xF3)]) 0xF3 8) (fun t => (t.pc, t.reg 7)) = some (8, 0xF4) := by decide
/-- V66. -/
theorem test_ret_at_last_address : view (cell (place .reset 255 [0x11]) 0xF4 9) (fun t => (t.pc, t.run)) =
    some (9, .running) := by decide
/-- V43. -/
theorem test_jmp : view (regs (place .reset 0x14 [0x54, 3]) [(3, 0x0C)]) (·.pc) = some 0x0C := by decide
/-- V46. -/
theorem test_jeq_taken :
    view ((regs (place .reset 0x0C [0x55, 2]) [(2, 0x10)]).setFlag true) (fun t => (t.pc, t.fl)) = some (0x10, true) := by
  decide
/-- V47. -/
theorem test_jeq_not_taken : view (regs (place .reset 0x0C [0x55, 2]) [(2, 0x10)]) (·.pc) = some 0x0E := by decide
/-- V48. -/
theorem test_jne_taken : view (regs (place .reset 0x0E [0x56, 2]) [(2, 0x30)]) (·.pc) = some 0x30 := by decide
/-- V49. -/
theorem test_jne_not_taken :
    view ((regs (place .reset 0x0E [0x56, 2]) [(2, 0x20)]).setFlag true) (·.pc) = some 0x10 := by decide
/-- V45. -/
theorem test_hlt_at_last_address : view (place .reset 255 [0x01]) (fun t => (t.pc, t.run, t.faultCause)) =
    some (256, .halted, .none) := by decide

/-! ### Faults (V50 to V64) -/

theorem test_v50 : faultView .reset = some (.faulted, .illegalInstruction, 0, 0) := by decide
theorem test_v54 : faultView (place .reset 0 [0xA0, 9, 10]) = some (.faulted, .registerIndexOutOfRange, 9, 0) := by decide
theorem test_v58 : faultView (place .reset 0 [0x55, 9]) = some (.faulted, .registerIndexOutOfRange, 9, 0) := by decide
theorem test_v59 : faultView (place .reset 256 []) = some (.faulted, .addressOutOfRange, 256, 256) := by decide
theorem test_v60 : faultView (place .reset 255 [0x47]) = some (.faulted, .addressOutOfRange, 256, 255) := by decide
theorem test_v61 : faultView (place .reset 254 [0x82, 9]) = some (.faulted, .addressOutOfRange, 256, 254) := by decide
theorem test_v63 : faultView (place .reset 254 [0x50, 0]) = some (.faulted, .addressOutOfRange, 256, 254) := by decide
theorem test_v64 : faultView (place .reset 254 [0x50, 9]) = some (.faulted, .registerIndexOutOfRange, 9, 254) := by decide
theorem test_fault_codes : FaultCause.none.code = 0 ∧ FaultCause.illegalInstruction.code = 1 ∧
    FaultCause.registerIndexOutOfRange.code = 2 ∧ FaultCause.addressOutOfRange.code = 3 := by decide
theorem test_stopped : after { State.reset with run := .halted } = some { State.reset with run := .halted } := by decide

/-! ### Witnesses: concrete states and operands that meet the hypotheses of the statements -/

/-- Reset with registers at values no two of which agree. -/
def base : State := regs .reset [(0, 0x2A), (1, 1), (2, 0xFF), (3, 0x40)]

/-- A state that was halted by a HLT. -/
def haltedState : State := { place .reset 0 [0x01] with pc := 1, run := .halted }

theorem witness_ResetValueOfEveryState : ∃ s, launch [0x01] = some s ∧ 0 < [(0x01 : Byte)].length := ⟨_, rfl, by decide⟩

theorem witness_OnlyResetLeavesAStoppedState : haltedState.run = .halted ∧ { State.reset with run := .faulted }.run = .faulted := by
  decide

theorem witness_LaunchIsResetPlusImage :
    (List.replicate 256 (0x01 : Byte)).length ≤ 256 ∧ 256 < (List.replicate 257 (0x01 : Byte)).length ∧
    ∃ s, launch [] = some s :=
  ⟨List.length_replicate.le, by rw [List.length_replicate]; omega, _, rfl⟩

theorem witness_DecodeIsExactlyTheInverseOfEncode :
    decode [0x82, 9, 255, 7] = .ok (.ldi 9 255, [7]) ∧ ([0x82, 9, 255, 7] : List Byte) = encode (.ldi 9 255) ++ [7] := by
  decide

theorem witness_EveryOtherOpcodeIsIllegal :
    (0x02 : Byte) ∉ opcodes ∧ (0x01 : Byte) ∈ opcodes ∧ (0xA7 : Byte) ∈ opcodes ∧
    (place .reset 255 [0xFF]).run = .running ∧ (place .reset 255 [0xFF]).pc.toNat ≤ 255 ∧
    (place .reset 255 [0xFF]).memRead (place .reset 255 [0xFF]).pc.toNat ∉ opcodes := by decide

theorem witness_RegisterIndexIsTheWholeByte : 7 < (8 : Byte).toNat ∧ (7 : Byte).toNat ≤ 7 := by decide

theorem witness_OperandFetchNeverWraps :
    255 < (place .reset 255 []).pc.toNat + 1 ∧ 255 < (place .reset 254 []).pc.toNat + 2 ∧
    (place .reset 254 []).pc.toNat + 1 ≤ 255 ∧ (place .reset 253 []).pc.toNat + 2 ≤ 255 := by decide

theorem witness_StepExecutes_ok : (place .reset 253 [0x82, 0, 8]).run = .running ∧
    decode (place .reset 253 [0x82, 0, 8]).bytesAtPc = .ok (.ldi 0 8, []) := by decide
theorem witness_StepExecutes_illegal : decode (place .reset 255 [0xA1]).bytesAtPc = .error (.illegalInstruction 0xA1) := by decide
theorem witness_StepExecutes_missing : decode (place .reset 255 [0x47]).bytesAtPc = .error (.missingOperand 1) ∧
    decode (place .reset 254 [0x82, 9]).bytesAtPc = .error (.missingOperand 2) := by decide
theorem witness_StepExecutes_none : decode (place .reset 256 []).bytesAtPc = .error .noOpcode := by decide

theorem witness_RegisterOperandAboveSevenTraps : 7 < (8 : Byte).toNat ∧ (7 : Byte).toNat ≤ 7 ∧ 7 < (255 : Byte).toNat := by
  decide

/-- One state for each clause, at the boundary of its range; the last is the one that faults. -/
theorem witness_FirstFailingCheckDecidesTheFault :
    255 < (place .reset 256 []).pc.toNat ∧
    ((place .reset 255 [0]).pc.toNat ≤ 255 ∧ (place .reset 255 [0]).memRead 255 ∉ opcodes) ∧
    (place .reset 255 [0xA7]).memRead 255 = 0xA7 ∧ (place .reset 255 [0x56]).memRead 255 = 0x56 ∧
    (place .reset 254 [0x82, 9]).memRead 254 = 0x82 ∧
    (place .reset 254 [0x50, 9]).operand 1 = 9 ∧ (place .reset 253 [0x82, 8, 0]).operand 1 = 8 ∧
    ((place .reset 253 [0xA0, 7, 8]).operand 1 = 7 ∧ (place .reset 253 [0xA0, 7, 8]).operand 2 = 8) ∧
    ((place .reset 254 [0x50, 7]).memRead 254 = 0x50 ∧ (place .reset 254 [0x50, 7]).operand 1 = 7) ∧
    (view (place .reset 254 [0x50, 7]) (·.run)) = some .faulted := by decide

theorem witness_FaultingStepChangesOnlyTheRecord :
    ∃ t, State.reset.run = .running ∧ step .reset = .next t ∧ t.run = .faulted := ⟨_, rfl, rfl, rfl⟩

/-- One state that halts and one that faults. -/
theorem witness_RunningEndsOnlyByHltOrFault :
    (place .reset 255 [0x01]).faultCause = .none ∧ (∃ t, step (place .reset 255 [0x01]) = .next t ∧ t.run = .halted) ∧
    (∃ t, step .reset = .next t ∧ t.run = .faulted) := ⟨rfl, ⟨_, rfl, rfl⟩, ⟨_, rfl, rfl⟩⟩

/-- The state after reset satisfies the invariant (a lemma of the witness below). -/
theorem reset_satisfies_inv : State.reset.Inv :=
  ⟨State.reset_wf, by decide, fun _ => ⟨rfl, rfl⟩, (fun h => by cases h), (fun h => by cases h)⟩

theorem witness_StepKeepsTheInvariant : State.reset.Inv ∧ ∃ t, step .reset = .next t := ⟨reset_satisfies_inv, _, rfl⟩

theorem witness_ResetAndLaunchedStatesSatisfyTheInvariant : ∃ s, launch [0x82, 0, 8, 0x01] = some s := ⟨_, rfl⟩

/-- A reached state with an address fault: a PRN opcode is pushed to 0xFF and jumped to, where its operand has no address. -/
theorem witness_ReachablePcAndAddressFaultBound : ∃ s, Reachable s ∧ s.faultCause = .addressOutOfRange := by
  have r0 : Reachable _ := .launched (image := [0x82, 7, 0, 0x82, 0, 0x47, 0x45, 0, 0x54, 7]) rfl
  have r1 := r0.stepped (t := _) rfl
  have r2 := r1.stepped (t := _) rfl
  have r3 := r2.stepped (t := _) rfl
  have r4 := r3.stepped (t := _) rfl
  have r5 := r4.stepped (t := _) rfl
  exact ⟨_, r5, rfl⟩

/-- Every constructor, each at the highest `pc` its clause allows. -/
theorem witness_PcAfterEveryInstruction :
    (∀ i ∈ [Instr.ldi 7 255, .add 7 7, .mul 0 7, .cmp 7 0, .call 7, .call 6], i.wf = true ∧
      (place base 253 []).pc.toNat + i.length ≤ 256 ∧ (after (place base 253 (encode i))).isSome) ∧
    (∀ i ∈ [Instr.prn 7, .push 7, .pop 7, .jmp 7, .jeq 7, .jne 7], i.wf = true ∧
      (place base 254 []).pc.toNat + i.length ≤ 256 ∧ (after (place base 254 (encode i))).isSome) ∧
    (∀ i ∈ [Instr.ret, .hlt], i.wf = true ∧
      (place base 255 []).pc.toNat + i.length ≤ 256 ∧ (after (place base 255 (encode i))).isSome) := by decide

theorem witness_PushCompletes : base.mem.wf := by decide
theorem witness_CallCompletes : (place base 253 [0x50, 1]).mem.wf ∧ (place base 253 [0x50, 1]).pc.toNat ≤ 253 ∧
    254 ≤ (place base 254 [0x50, 1]).pc.toNat := by decide

/-- The clauses of `State.stepsAsR` for one opcode: operand address, register index, effect. -/
abbrev witnessR (op : Byte) : Prop :=
  ((place base 255 [op]).atOpcode op ∧ (place base 255 [op]).pc.toNat = 255) ∧
  ((place base 254 [op, 8]).atOpcode op ∧ (place base 254 [op, 8]).pc.toNat ≤ 254 ∧ 7 < (place base 254 [op, 8]).operand 1) ∧
  ((place base 254 [op, 7]).atOpcode op ∧ (place base 254 [op, 7]).operand 1 = (7 : Fin 8).val)

/-- The clauses of `State.stepsAsRR` for one opcode. -/
abbrev witnessRR (op : Byte) : Prop :=
  ((place base 254 [op, 9]).atOpcode op ∧ 254 ≤ (place base 254 [op, 9]).pc.toNat) ∧
  ((place base 253 [op, 8, 9]).atOpcode op ∧ (place base 253 [op, 8, 9]).pc.toNat ≤ 253 ∧
    7 < (place base 253 [op, 8, 9]).operand 1) ∧
  ((place base 253 [op, 7, 8]).atOpcode op ∧ (place base 253 [op, 7, 8]).operand 1 ≤ 7 ∧
    7 < (place base 253 [op, 7, 8]).operand 2) ∧
  ((place base 253 [op, 7, 0]).atOpcode op ∧ (place base 253 [op, 7, 0]).operand 1 = (7 : Fin 8).val ∧
    (place base 253 [op, 7, 0]).operand 2 = (0 : Fin 8).val)

theorem witness_StepOfLdi : witnessRR 0x82 := by decide
theorem witness_StepOfLdi_then_prn :
    (place base 251 [0x82, 7, 9, 0x47, 7]).atOpcode 0x82 ∧ (place base 251 [0x82, 7, 9, 0x47, 7]).pc.toNat ≤ 251 ∧
    (place base 251 [0x82, 7, 9, 0x47, 7]).operand 1 = (7 : Fin 8).val ∧
    (place base 251 [0x82, 7, 9, 0x47, 7]).memRead ((place base 251 [0x82, 7, 9, 0x47, 7]).pc.toNat + 3) = 0x47 ∧
    (place base 251 [0x82, 7, 9, 0x47, 7]).operand 4 = (7 : Fin 8).val := by decide
theorem witness_StepOfPrn : witnessR 0x47 := by decide
theorem witness_StepOfAdd : witnessRR 0xA0 := by decide
theorem witness_StepOfMul : witnessRR 0xA2 := by decide
theorem witness_StepOfCmp : witnessRR 0xA7 := by decide
theorem witness_StepOfPush : witnessR 0x45 := by decide
theorem witness_StepOfPop : witnessR 0x46 := by decide
theorem witness_StepOfCall : witnessR 0x50 := by decide
theorem witness_StepOfRet : (place base 255 [0x11]).atOpcode 0x11 := by decide
theorem witness_StepOfJmp : witnessR 0x54 := by decide
theorem witness_StepOfJeq : witnessR 0x55 := by decide
theorem witness_StepOfJne : witnessR 0x56 := by decide
theorem witness_StepOfHlt : (place base 255 [0x01]).atOpcode 0x01 ∧ haltedState.run = .halted ∧
    step haltedState = .next haltedState ∧ ∃ t, step (place base 255 [0x01]) = .next t ∧ t.run = .halted :=
  ⟨by decide, by decide, rfl, _, rfl, rfl⟩

/-- A step that changes the flag; a step at neither JEQ nor JNE; a clear flag. -/
theorem witness_FlagIsWrittenByCmpAndReadByJumpsOnly :
    (∃ t, step (place base 0 [0xA7, 0, 0]) = .next t ∧ t.fl ≠ (place base 0 [0xA7, 0, 0]).fl) ∧
    ¬ (place base 0 [0xA7, 0, 0]).atOpcode 0x55 ∧ ¬ (place base 0 [0xA7, 0, 0]).atOpcode 0x56 ∧ base.fl = false :=
  ⟨⟨_, rfl, by decide⟩, by decide, by decide, rfl⟩

theorem witness_OutputIsAppendedByPrnAndNeverRead :
    ∃ t, step (place base 0 [0x47, 0]) = .next t ∧ t.out = (place base 0 [0x47, 0]).out ++ [0x2A] := ⟨_, rfl, by decide⟩

/-- A canonical memory and its last cell; a PUSH and a CALL that change a byte. -/
theorem witness_MemoryIsWrittenByPushAndCallOnly :
    Memory.wf [(3, 1), (255, 9)] ∧ (3 : Nat) ≠ 255 ∧
    (∃ t, step (place base 0 [0x45, 0]) = .next t ∧ t.memRead 0xF3 ≠ (place base 0 [0x45, 0]).memRead 0xF3) ∧
    (∃ t, step (place base 0 [0x50, 1]) = .next t ∧ t.memRead 0xF3 ≠ (place base 0 [0x50, 1]).memRead 0xF3) :=
  ⟨by decide, by decide, ⟨_, rfl, by decide⟩, ⟨_, rfl, by decide⟩⟩

theorem witness_EqualReadsMeanEqualMemories :
    Memory.wf (Memory.write (Memory.write [] 9 1) 3 2) ∧ Memory.wf (Memory.write (Memory.write [] 3 2) 9 1) ∧
    ∀ addr, addr ≤ 255 →
      Memory.read (Memory.write (Memory.write [] 9 1) 3 2) addr = Memory.read (Memory.write (Memory.write [] 3 2) 9 1) addr :=
  ⟨by decide, by decide, fun _ _ => rfl⟩

/-- A destination register and the stack pointer, each changed by a step. -/
theorem witness_RegistersChangeOnlyByTheirWriters :
    (∃ t, step (place base 0 [0x82, 5, 9]) = .next t ∧ t.reg 5 ≠ (place base 0 [0x82, 5, 9]).reg 5) ∧
    (∃ t, step (place base 0 [0x11]) = .next t ∧ t.reg 7 ≠ (place base 0 [0x11]).reg 7) :=
  ⟨⟨_, rfl, by decide⟩, ⟨_, rfl, by decide⟩⟩

/-- The hypotheses of the PUSH and POP round trip for operands a and b at the highest `pc`. -/
abbrev witnessPushPop (a b : Fin 8) : Prop :=
  let s := place base 252 [0x45, regByte a, 0x46, regByte b]
  s.mem.wf ∧ s.atOpcode 0x45 ∧ s.pc.toNat ≤ 252 ∧ s.operand 1 = a.val ∧ s.memRead (s.pc.toNat + 2) = 0x46 ∧
    s.operand 3 = b.val ∧ s.decSp.stackAddr ≠ s.pc.toNat + 2 ∧ s.decSp.stackAddr ≠ s.pc.toNat + 3

theorem witness_PushThenPopRoundTrip : witnessPushPop 0 6 ∧ witnessPushPop 7 0 ∧ witnessPushPop 0 7 ∧ witnessPushPop 7 7 := by
  decide

/-- CALL R3 at 253 to a RET at 0x40. -/
theorem witness_CallThenRetRoundTrip :
    let s := cell (place base 253 [0x50, 3]) 0x40 0x11
    s.mem.wf ∧ s.atOpcode 0x50 ∧ s.pc.toNat ≤ 253 ∧ s.operand 1 = (3 : Fin 8).val ∧ (3 : Fin 8) ≠ 7 ∧
      s.memRead (s.reg 3).toNat = 0x11 ∧ s.decSp.stackAddr ≠ (s.reg 3).toNat := by decide

/-- PUSH R0 (not an opcode) and PUSH R1 (HLT) into the cell after the PUSH, at the highest `pc`. -/
theorem witness_PushedByteIsTheNextOpcode :
    (let s := regs (place base 253 [0x45, 0]) [(7, 0)]
     s.mem.wf ∧ s.atOpcode 0x45 ∧ s.pc.toNat ≤ 253 ∧ s.operand 1 = (0 : Fin 8).val ∧
      s.decSp.stackAddr = s.pc.toNat + 2 ∧ s.reg 0 ∉ opcodes) ∧
    (let s := regs (place base 253 [0x45, 1]) [(7, 0)]
     s.operand 1 = (1 : Fin 8).val ∧ s.decSp.stackAddr = s.pc.toNat + 2 ∧ s.reg 1 = 0x01) := by decide

theorem witness_StackPointerWraps :
    (regs base [(7, 0x00)]).mem.wf ∧ (regs base [(7, 0x00)]).reg 7 = 0x00 ∧ (regs base [(7, 0xFF)]).reg 7 = 0xFF ∧
    base.run = .running ∧ (0 : Fin 8) ≠ 7 := by decide

theorem witness_OutputTextIsDecimalLines : (100 : Byte) ≠ 0 := by decide

theorem witness_OutputTextDeterminesTheValues : outText [1, 23] = outText [1, 23] := rfl

/-- A run that is out of budget, one that halts and one that faults. -/
theorem witness_BudgetNeverChangesTheOutcome :
    (∃ t, runLoop 0 .reset = .next (.unfinished t)) ∧ (∃ t, runLoop 1 (place .reset 0 [0x01]) = .next (.halted t)) ∧
    (∃ t, runLoop 1 .reset = .next (.faulted t)) ∧ (place .reset 0 [0x01]).haltsWithin 1 :=
  ⟨⟨_, rfl⟩, ⟨_, rfl⟩, ⟨_, rfl⟩, ⟨_, rfl⟩⟩

end Sys2Proof.Tests
end

/-! ## What an answered step says

Inversions of `exec` and `step` on their answer, shared by the whole-machine rules. -/

namespace Sys2Proof.Machine

/-- An answer of `exec` is the instruction's effect or a fault raised on the unchanged state. -/
theorem exec_next_cases {i : Instr} {s t : State} (h : exec i s = .next t) : Effect s i t ∨ ∃ tr, t = s.raise tr := by
  rcases exec_cases i s with ⟨u, hu, he⟩ | ⟨b, -, -, -, hu⟩ | ⟨r, -, -, hu⟩ <;> cases hu.symm.trans h
  · exact .inl he
  · exact .inr ⟨_, rfl⟩
  · exact .inr ⟨_, rfl⟩

/-- An answer of `step` is the same stopped state, the fault of the fetch, or what `exec` answers. -/
theorem step_next_cases {s t : State} (h : step s = .next t) :
    (s.run ≠ .running ∧ t = s) ∨
    (s.run = .running ∧ ∃ tr, fetchInstr s = .error tr ∧ t = s.raise tr) ∨
    (s.run = .running ∧ ∃ i, fetchInstr s = .ok i ∧ exec i s = .next t) := by
  by_cases hr : s.run = .running
  · rcases step_cases hr with ⟨tr, hf, hs⟩ | ⟨i, hf, hs⟩
    · cases hs.symm.trans h
      exact .inr (.inl ⟨hr, tr, hf, rfl⟩)
    · exact .inr (.inr ⟨hr, i, hf, hs.symm.trans h⟩)
  · cases (step_stopped hr).symm.trans h
    exact .inl ⟨hr, rfl⟩

/-- A running core that fetched an instruction stands at that instruction's opcode. -/
theorem atOpcode_of_fetchInstr {s : State} {i : Instr} {op : Byte} {rest : List Byte} (hr : s.run = .running)
    (hf : fetchInstr s = .ok i) (he : encode i = op :: rest) : s.atOpcode op := by
  obtain ⟨hlen, hbytes⟩ := fetchInstr_ok hf
  have hpos : 0 < (encode i).length := by simp [he]
  have hop : s.memRead s.pc.toNat = op := by simpa [he] using hbytes 0 hpos
  rw [encode_length] at hpos
  exact ⟨hr, by omega, hop⟩

/-- Two runs of a one-register instruction on the same operand byte are related when their faults and their effects are. -/
theorem withReg_rel {R : Result → Result → Prop} {s s' : State}
    (hraise : ∀ tr, R (.next (s.raise tr)) (.next (s'.raise tr))) (a : Byte) {f f' : Fin 8 → Result}
    (hf : ∀ r, R (f r) (f' r)) : R (withReg a s f) (withReg a s' f') := by
  rcases regByte_or_gt a with ⟨r, rfl⟩ | h
  · simpa using hf r
  · simpa only [withReg_of_gt h] using hraise _

end Sys2Proof.Machine

/-! ## Reset and launch (R23, R24) -/

namespace Sys2Proof.Machine

/-- The reset register file: all zero but the stack pointer. -/
theorem State.reset_reg (r : Fin 8) : State.reset.reg r = if r = 7 then 0xF4 else 0x00 := by
  revert r; decide

/-- The loader launches exactly the images that fit, each over the reset state. -/
theorem launch_eq_some {image : List Byte} {s : State} :
    launch image = some s ↔ image.length ≤ 256 ∧ s = { State.reset with mem := Memory.load [] 0 image } := by
  simp [launch, eq_comm]

/-- A launched image stands in memory from address 0. -/
theorem launch_memRead {image : List Byte} {s : State} (h : launch image = some s) {i : Nat} (hi : i < image.length) :
    s.memRead i = image[i] := by
  obtain ⟨hlen, rfl⟩ := launch_eq_some.mp h
  have hcell := Memory.read_load State.reset_wf 0 image hi (by omega)
  rwa [Nat.zero_add] at hcell

/-- Settles O1: the register file by its eight values, the image by read after load, the rest by the reset record. -/
theorem resetValueOfEveryState : Obligations.ResetValueOfEveryState :=
  ⟨State.reset_reg, rfl, rfl, fun addr _ => State.reset_memRead addr, rfl, rfl, rfl, rfl, rfl,
    fun _ _ h _ hi => launch_memRead h hi⟩

end Sys2Proof.Machine

/-! ## The flag (R15) -/

namespace Sys2Proof.Machine

/-- Every effect but CMP's keeps the flag. -/
theorem Effect.fl_eq {s t : State} {i : Instr} (h : Effect s i t) (hi : ∀ a b, i ≠ .cmp a b) : t.fl = s.fl := by
  cases h with
  | cmp r q => exact absurd rfl (hi _ _)
  | jeq r | jne r => split <;> rfl
  | _ => rfl

/-- A step that changes the flag is a CMP. -/
theorem atOpcode_cmp_of_fl_ne {s t : State} (h : step s = .next t) (hfl : t.fl ≠ s.fl) : s.atOpcode 0xA7 := by
  rcases step_next_cases h with ⟨-, rfl⟩ | ⟨-, tr, -, rfl⟩ | ⟨hr, i, hf, hx⟩
  · exact absurd rfl hfl
  · exact absurd rfl hfl
  · rcases exec_next_cases hx with he | ⟨tr, rfl⟩
    · by_cases hi : ∃ a b, i = .cmp a b
      · obtain ⟨a, b, rfl⟩ := hi
        exact atOpcode_of_fetchInstr hr hf rfl
      · exact absurd (he.fl_eq fun a b hab => hi ⟨a, b, hab⟩) hfl
    · exact absurd rfl hfl

/-- When the first result is a next state, the second is that state up to the flag. -/
def SameButFlag (o o' : Result) : Prop := ∀ t, o = .next t → ∃ f, o' = .next (t.setFlag f)

theorem SameButFlag.next (t : State) (f : Bool) : SameButFlag (.next t) (.next (t.setFlag f)) := by
  rintro _ ⟨⟩
  exact ⟨f, rfl⟩

/-- No meaning but that of JEQ and JNE reads the flag. CMP gives it the same new value on both sides. -/
theorem exec_setFlag (i : Instr) (s : State) (f : Bool) (hjeq : ∀ a, i ≠ .jeq a) (hjne : ∀ a, i ≠ .jne a) :
    SameButFlag (exec i s) (exec i (s.setFlag f)) := by
  have one (a : Byte) {e e' : Fin 8 → Result} (he : ∀ r, SameButFlag (e r) (e' r)) :
      SameButFlag (withReg a s e) (withReg a (s.setFlag f) e') := withReg_rel (fun tr => .next (s.raise tr) f) a he
  cases i with
  | jeq a => exact absurd rfl (hjeq a)
  | jne a => exact absurd rfl (hjne a)
  | ret | hlt => exact .next _ f
  | mul a b | add a b => exact one a fun r => one b fun q => .next _ f
  | cmp a b => exact one a fun r => one b fun q => .next _ (equalFlag (s.reg r) (s.reg q))
  | call a =>
    refine one a fun r => ?_
    by_cases hp : Config.lastAddress < s.pc.toNat + 2
    · simp only [State.setFlag_pc, hp, if_true]
      exact .next _ f
    · simp only [State.setFlag_pc, hp, if_false]
      exact .next _ f
  | ldi a imm => exact one a fun r => .next _ f
  | prn a | push a | pop a | jmp a => exact one a fun r => .next _ f

/-- Without JEQ or JNE at `pc`, the flag before a step makes no difference to anything but the flag after it. -/
theorem step_setFlag {s : State} (f : Bool) (hjeq : ¬ s.atOpcode 0x55) (hjne : ¬ s.atOpcode 0x56) :
    SameButFlag (step s) (step (s.setFlag f)) := by
  have hfetch : fetchInstr (s.setFlag f) = fetchInstr s := rfl
  by_cases hr : s.run = .running
  · have hr' : (s.setFlag f).run = .running := hr
    rcases step_cases hr with ⟨tr, hf, hs⟩ | ⟨i, hf, hs⟩
    · rw [hs, step_of_fetch_error hr' (hfetch.trans hf)]
      exact .next _ f
    · rw [hs, step_of_fetch hr' (hfetch.trans hf)]
      apply exec_setFlag
      · rintro a rfl
        exact hjeq (atOpcode_of_fetchInstr hr hf rfl)
      · rintro a rfl
        exact hjne (atOpcode_of_fetchInstr hr hf rfl)
  · rw [step_stopped hr, step_stopped (s := s.setFlag f) hr]
    exact .next _ f

/-- With the flag 0, JEQ falls through to the next instruction. -/
theorem exec_jeq_of_clear {s : State} (a : Fin 8) (h : s.fl = false) :
    exec (.jeq (regByte a)) s = .next { s with pc := s.pc + 2 } := by
  rw [exec_jeq, if_neg (by simp [h])]
  rfl

/-- With the flag 0, JNE jumps. -/
theorem exec_jne_of_clear {s : State} (a : Fin 8) (h : s.fl = false) :
    exec (.jne (regByte a)) s = .next { s with pc := BitVec.ofNat 9 (s.reg a).toNat } := by
  rw [exec_jne, if_neg (by simp [h]), ← setWidth_nine]
  rfl

/-- Settles O43: only CMP's effect writes the flag, and every meaning but that of JEQ and JNE answers the same state up to
the flag whatever the flag was. -/
theorem flagIsWrittenByCmpAndReadByJumpsOnly : Obligations.FlagIsWrittenByCmpAndReadByJumpsOnly :=
  ⟨rfl, fun s a b => ⟨_, exec_cmp s a b, rfl⟩, fun _ _ => atOpcode_cmp_of_fl_ne,
    fun _ t f hjeq hjne h => step_setFlag f hjeq hjne t h,
    fun _ a h => ⟨exec_jeq_of_clear a h, exec_jne_of_clear a h⟩⟩

end Sys2Proof.Machine

/-! ## Memory (R31, R86, R90) -/

namespace Sys2Proof.Machine

/-- An effect leaves the memory alone, but that of PUSH and of CALL writes the cell at the decremented stack pointer. -/
theorem Effect.mem_cases {s t : State} {i : Instr} (h : Effect s i t) :
    t.mem = s.mem ∨ ((∃ a, i = .push a) ∨ ∃ a, i = .call a) ∧ ∃ v, t.mem = s.mem.write s.decSp.stackAddr v := by
  cases h with
  | push r => exact .inr ⟨.inl ⟨_, rfl⟩, _, rfl⟩
  | call r => exact .inr ⟨.inr ⟨_, rfl⟩, _, rfl⟩
  | jeq r | jne r => left; split <;> rfl
  | _ => exact .inl rfl

/-- A step leaves the memory alone, or it is a PUSH or a CALL and writes the cell at the decremented stack pointer. -/
theorem step_mem_cases {s t : State} (h : step s = .next t) :
    t.mem = s.mem ∨
      (s.atOpcode 0x45 ∨ s.atOpcode 0x50) ∧ ∃ v, t.mem = s.mem.write s.decSp.stackAddr v := by
  rcases step_next_cases h with ⟨-, rfl⟩ | ⟨-, tr, -, rfl⟩ | ⟨hr, i, hf, hx⟩
  · exact .inl rfl
  · exact .inl rfl
  · rcases exec_next_cases hx with he | ⟨tr, rfl⟩
    · refine he.mem_cases.imp_right (And.imp_left ?_)
      rintro (⟨a, rfl⟩ | ⟨a, rfl⟩)
      · exact .inl (atOpcode_of_fetchInstr hr hf rfl)
      · exact .inr (atOpcode_of_fetchInstr hr hf rfl)
    · exact .inl rfl

/-- A step after which an address reads differently is a PUSH or a CALL, and that address is the decremented stack pointer. -/
theorem atOpcode_push_or_call_of_memRead_ne {s t : State} {addr : Nat} (h : step s = .next t)
    (hne : t.memRead addr ≠ s.memRead addr) :
    (s.atOpcode 0x45 ∨ s.atOpcode 0x50) ∧ addr = s.decSp.stackAddr := by
  rcases step_mem_cases h with hmem | ⟨hop, v, hmem⟩
  · exact absurd (congrArg (Memory.read · addr) hmem) hne
  · refine ⟨hop, by_contra fun haddr => hne ?_⟩
    calc t.memRead addr
      _ = (s.mem.write s.decSp.stackAddr v).read addr := congrArg (Memory.read · addr) hmem
      _ = s.memRead addr := Memory.read_write_ne _ v haddr

/-- Settles O45: the laws of the memory list for the write, and the one write that a step can make for the rest. -/
theorem memoryIsWrittenByPushAndCallOnly : Obligations.MemoryIsWrittenByPushAndCallOnly :=
  ⟨fun _ addr v hm ha => ⟨Memory.read_write_same hm addr v, Memory.write_wf hm (Nat.lt_succ_of_le ha) v⟩,
    fun m _ _ v hne => Memory.read_write_ne m v hne,
    fun _ _ _ h hne => atOpcode_push_or_call_of_memRead_ne h hne⟩

end Sys2Proof.Machine

/-! ## Illegal opcodes (R50, R52) -/

namespace Sys2Proof

/-- The 13 opcodes of the spec are the opcodes of the map, in ascending order. -/
theorem opcodeTable_opcodes_perm : (opcodeTable.map OpcodeRow.opcode).Perm Machine.opcodes := by decide

/-- A byte has no format exactly when it is none of the 13 opcodes. -/
theorem formatOf_eq_none_iff {op : Byte} : formatOf op = none ↔ op ∉ Machine.opcodes := by
  rw [formatOf_none, opcodeTable_opcodes_perm.mem_iff]

/-- An opcode with a format makes an instruction of whatever two operand bytes it is offered. -/
theorem decodeWith_ok {ε : Type} {illegal : Byte → ε} {operand : Nat → Except ε Byte} {op a b : Byte}
    (hop : formatOf op ≠ none) (ha : operand 1 = .ok a) (hb : operand 2 = .ok b) :
    ∃ i, decodeWith illegal operand op = .ok i := by
  obtain ⟨f, hf⟩ := Option.ne_none_iff_exists'.mp hop
  cases f with
  | z make => exact ⟨make, by simp [decodeWith, hf]⟩
  | r make => exact ⟨make a, by simp [decodeWith, hf, ha]⟩
  | rr make | ri make => exact ⟨make a b, by simp [decodeWith, hf, ha, hb]⟩

/-- A byte outside the 13 is rejected whatever follows it. -/
theorem decode_illegal {op : Byte} (rest : List Byte) (h : op ∉ Machine.opcodes) :
    decode (op :: rest) = .error (.illegalInstruction op) := by
  simp [decode, decodeWith_illegal _ _ (formatOf_eq_none_iff.mpr h)]

/-- Each of the 13 opcodes, with two bytes after it, decodes. -/
theorem decode_opcode {op : Byte} (a b : Byte) (h : op ∈ Machine.opcodes) :
    ∃ i rest, decode [op, a, b] = .ok (i, rest) := by
  have hop : formatOf op ≠ none := fun hn => formatOf_eq_none_iff.mp hn h
  obtain ⟨i, hi⟩ := decodeWith_ok (illegal := .illegalInstruction) (operand := operandOf [a, b]) hop rfl rfl
  refine ⟨i, [a, b].drop (i.length - 1), ?_⟩
  simp only [decode, hi]

end Sys2Proof

namespace Sys2Proof.Machine

/-- The numbers below 256 that are opcodes are the 13 opcodes, each once. -/
theorem legal_opcodes_perm :
    ((List.range 256).filter fun n => BitVec.ofNat 8 n ∈ opcodes).Perm (opcodes.map BitVec.toNat) := by
  refine (List.perm_ext_iff_of_nodup (List.nodup_range.filter _) (by decide)).mpr fun n => ?_
  simp only [List.mem_filter, List.mem_range, decide_eq_true_eq, List.mem_map]
  constructor
  · rintro ⟨hn, hop⟩
    exact ⟨_, hop, Nat.mod_eq_of_lt hn⟩
  · rintro ⟨op, hop, rfl⟩
    exact ⟨op.isLt, by rwa [BitVec.ofNat_toNat, BitVec.setWidth_eq]⟩

/-- The 13 are distinct, so 256 - 13 byte values are outside them. -/
theorem illegal_opcodes_length : ((List.range 256).filter fun n => BitVec.ofNat 8 n ∉ opcodes).length = 243 := by
  have hsplit := List.length_eq_length_filter_add (l := List.range 256) fun n => decide (BitVec.ofNat 8 n ∈ opcodes)
  have hlegal : _ = 13 := legal_opcodes_perm.length_eq
  simp only [List.length_range, hlegal, ← decide_not] at hsplit
  omega

/-- A running core with a byte outside the 13 at `pc` raises IllegalInstruction with that byte. -/
theorem step_illegal {s : State} (hr : s.run = .running) (hp : s.pc.toNat ≤ 255)
    (h : s.memRead s.pc.toNat ∉ opcodes) :
    step s = .next (s.faultedWith .illegalInstruction (s.memRead s.pc.toNat).toNat) := by
  have hf : fetchInstr s = .error (.illegalInstruction (s.memRead s.pc.toNat)) :=
    (fetchInstr_of_le hp).trans (decodeWith_illegal _ _ (formatOf_eq_none_iff.mpr h))
  rw [step_of_fetch_error hr hf, State.raise_illegal]

/-- Settles O6: a byte outside the 13 has no format, so the one decoder rejects it before any operand, on a list and at `pc`. -/
theorem everyOtherOpcodeIsIllegal : Obligations.EveryOtherOpcodeIsIllegal :=
  ⟨fun _ rest h => decode_illegal rest h, fun _ a b h => decode_opcode a b h, illegal_opcodes_length,
    by decide, by decide, fun _ hr hp h => step_illegal hr hp h⟩

end Sys2Proof.Machine

/-! ## Operands (R62, R63) -/

namespace Sys2Proof.Machine

/-- A byte up to 7 names the register with that index. -/
theorem regIndex_of_le {b : Byte} (h : b.toNat ≤ 7) : ∃ r : Fin 8, regIndex b = .ok r ∧ r.val = b.toNat := by
  obtain ⟨r, rfl⟩ := exists_regByte h
  exact ⟨r, regIndex_regByte r, (regByte_toNat r).symm⟩

/-- Settles O7: a byte up to 7 is the byte of its register, and any byte above is the fault's own argument. -/
theorem registerIndexIsTheWholeByte : Obligations.RegisterIndexIsTheWholeByte :=
  fun _ => ⟨regIndex_of_gt, regIndex_of_le⟩

/-- Settles O8: the two ranges of the unreduced sum, which hold for every `k`, so for the two operand positions. -/
theorem operandFetchNeverWraps : Obligations.OperandFetchNeverWraps :=
  fun _ _ _ => ⟨fetchOperand_of_gt, fetchOperand_of_le⟩

end Sys2Proof.Machine

/-! ## The ALU and its three instructions (R72 to R77) -/

namespace Sys2Proof.Machine

/-- Byte addition wraps at 256 (D1). -/
theorem byte_add_eq (u v : Byte) : u + v = BitVec.ofNat 8 ((u.toNat + v.toNat) % 256) :=
  BitVec.eq_of_toNat_eq (by simp)

/-- Byte multiplication keeps the low byte of the product (D1). -/
theorem byte_mul_eq (u v : Byte) : u * v = BitVec.ofNat 8 (u.toNat * v.toNat % 256) :=
  BitVec.eq_of_toNat_eq (by simp)

/-- Byte subtraction wraps below 0 (D1). -/
theorem byte_sub_eq (u v : Byte) : u - v = BitVec.ofNat 8 ((u.toNat + 256 - v.toNat) % 256) :=
  BitVec.eq_of_toNat_eq (by simp; omega)

/-- The flag of a comparison is equality of the two unsigned values. -/
theorem equalFlag_eq (u v : Byte) : equalFlag u v = decide (u.toNat = v.toNat) := by
  simp [equalFlag, BitVec.toNat_inj, Bool.beq_eq_decide_eq]

section
variable (s : State) (a b : Fin 8)

theorem alu_add : alu .add a b s = s.setReg a (BitVec.ofNat 8 (((s.reg a).toNat + (s.reg b).toNat) % 256)) :=
  congrArg (s.setReg a) (byte_add_eq _ _)

theorem alu_mul : alu .mul a b s = s.setReg a (BitVec.ofNat 8 (((s.reg a).toNat * (s.reg b).toNat) % 256)) :=
  congrArg (s.setReg a) (byte_mul_eq _ _)

theorem alu_sub : alu .sub a b s = s.setReg a (BitVec.ofNat 8 (((s.reg a).toNat + 256 - (s.reg b).toNat) % 256)) :=
  congrArg (s.setReg a) (byte_sub_eq _ _)

theorem alu_cmp : alu .cmp a b s = { s with fl := decide ((s.reg a).toNat = (s.reg b).toNat) } :=
  congrArg s.setFlag (equalFlag_eq _ _)

/-- ADD of a register to itself doubles it. -/
theorem alu_add_self : ((alu .add a a s).reg a).toNat = 2 * (s.reg a).toNat % 256 := by
  simp [alu_add, two_mul]

/-- MUL of a register by itself squares it. -/
theorem alu_mul_self : ((alu .mul a a s).reg a).toNat = (s.reg a).toNat ^ 2 % 256 := by
  simp [alu_mul, sq]

/-- SUB of a register from itself clears it. -/
theorem alu_sub_self : (alu .sub a a s).reg a = 0 :=
  (State.setReg_reg_same s a _).trans (BitVec.sub_self _)

/-- CMP of a register with itself sets the flag. -/
theorem alu_cmp_self : (alu .cmp a a s).fl = true := by
  simp [alu_cmp]

/-- No ALU operation moves `pc`. -/
theorem alu_pc (op : AluOp) : (alu op a b s).pc = s.pc := by
  cases op <;> rfl

end

/-- Settles O19: the wrapped sum, product and difference, equality for the flag, and their values on `a = b`. -/
theorem aluComputesItsFourOperations : Obligations.AluComputesItsFourOperations :=
  fun s a b => ⟨alu_add s a b, alu_mul s a b, alu_sub s a b, alu_cmp s a b,
    alu_add_self s a, alu_mul_self s a, alu_sub_self s a, alu_cmp_self s a⟩

/-! ### The step of a two-operand format -/

/-- A byte with the index of a register is that register's byte. -/
theorem eq_regByte {b : Byte} {r : Fin 8} (h : b.toNat = r.val) : b = regByte r :=
  BitVec.eq_of_toNat_eq (h.trans (regByte_toNat r).symm)

/-- `pc + n` in 9 bits, as a number. -/
theorem State.advance_eq (s : State) (n : Nat) : s.advance n = { s with pc := BitVec.ofNat 9 (s.pc.toNat + n) } := by
  simp [State.advance, BitVec.ofNat_add]

section
variable {s : State} {op : Byte} {make : Byte → Byte → Instr}

/-- Up to address 253 both operand bytes of a two-operand format are fetched. -/
theorem fetchInstr_two_operands (h : s.atOpcode op) (hop : formatOf op = some (.rr make) ∨ formatOf op = some (.ri make))
    (hp : s.pc.toNat ≤ 253) :
    fetchInstr s = .ok (make (s.memRead (s.pc.toNat + 1)) (s.memRead (s.pc.toNat + 2))) := by
  obtain ⟨-, hpc, rfl⟩ := h
  have h1 : fetchOperand s 1 = .ok _ := fetchOperand_of_le (by omega)
  have h2 : fetchOperand s 2 = .ok _ := fetchOperand_of_le (by omega)
  rw [fetchInstr_of_le hpc]
  rcases hop with hop | hop <;> simp [decodeWith, hop, h1, h2]

/-- From address 254 on, the first operand byte of a two-operand format outside the memory stands at 256. -/
theorem fetchInstr_two_operands_top (h : s.atOpcode op)
    (hop : formatOf op = some (.rr make) ∨ formatOf op = some (.ri make)) (hp : 254 ≤ s.pc.toNat) :
    fetchInstr s = .error (.addressOutOfRange 256) := by
  obtain ⟨-, hpc, rfl⟩ := h
  rw [fetchInstr_of_le hpc]
  obtain hp | hp : s.pc.toNat = 254 ∨ s.pc.toNat = 255 := by omega
  · have h1 : fetchOperand s 1 = .ok _ := fetchOperand_of_le (by omega)
    have h2 : fetchOperand s 2 = .error (.addressOutOfRange 256) := by
      simpa only [hp] using fetchOperand_of_gt (s := s) (k := 2) (by omega)
    rcases hop with hop | hop <;> simp [decodeWith, hop, h1, h2]
  · have h1 : fetchOperand s 1 = .error (.addressOutOfRange 256) := by
      simpa only [hp] using fetchOperand_of_gt (s := s) (k := 1) (by omega)
    rcases hop with hop | hop <;> simp [decodeWith, hop, h1]

/-- An instruction of format RR whose meaning checks both registers and then takes an effect steps as that format does. -/
theorem stepsAsRR_of_withRegs {effect : Fin 8 → Fin 8 → State} (h : s.atOpcode op) (hop : formatOf op = some (.rr make))
    (hexec : ∀ a b, exec (make a b) s = withRegs a b s fun r q => .next (effect r q)) : s.stepsAsRR effect := by
  have hstep (hp : s.pc.toNat ≤ 253) : step s =
      withRegs (s.memRead (s.pc.toNat + 1)) (s.memRead (s.pc.toNat + 2)) s fun r q => .next (effect r q) :=
    (step_of_fetch h.1 (fetchInstr_two_operands h (.inl hop) hp)).trans (hexec _ _)
  refine ⟨fun hp => ?_, fun hp ha => ?_, fun hp ha hb => ?_, fun r q hp ha hb => ?_⟩
  · exact step_of_fetch_error h.1 (fetchInstr_two_operands_top h (.inl hop) hp)
  · rw [hstep hp, withRegs_of_gt_left ha, State.raise_register]
    rfl
  · obtain ⟨r, hr⟩ := exists_regByte ha
    rw [hstep hp, hr, withRegs_of_gt_right r hb, State.raise_register]
    rfl
  · rw [hstep hp, eq_regByte ha, eq_regByte hb, withRegs_regByte]

/-- An instruction that runs one ALU operation on its two registers steps to that operation's result, with `pc + 3`. -/
theorem stepsAsRR_of_alu (aop : AluOp) (h : s.atOpcode op) (hop : formatOf op = some (.rr make))
    (hexec : ∀ a b, exec (make a b) s = withRegs a b s fun r q => .next ((alu aop r q s).advance 3)) :
    s.stepsAsRR fun r q => { alu aop r q s with pc := BitVec.ofNat 9 (s.pc.toNat + 3) } := by
  simpa only [State.advance_eq, alu_pc] using stepsAsRR_of_withRegs h hop hexec

end

/-- Settles O32: ADD is the format RR step of the ALU's sum. -/
theorem stepOfAdd : Obligations.StepOfAdd := fun s h => by
  simpa only [alu_add] using stepsAsRR_of_alu .add h rfl fun _ _ => rfl

/-- Settles O33: MUL is the format RR step of the ALU's product. -/
theorem stepOfMul : Obligations.StepOfMul := fun s h => by
  simpa only [alu_mul] using stepsAsRR_of_alu .mul h rfl fun _ _ => rfl

/-- Settles O34: CMP is the format RR step of the ALU's comparison. -/
theorem stepOfCmp : Obligations.StepOfCmp := fun s h => by
  simpa only [alu_cmp] using stepsAsRR_of_alu .cmp h rfl fun _ _ => rfl

end Sys2Proof.Machine

/-! ## PRN and LDI (R81, R82) -/

namespace Sys2Proof.Machine

section
variable {s : State} {op : Byte}

/-- Up to address 254 the operand byte of a one-register format is fetched. -/
theorem fetchInstr_one_operand {make : Byte → Instr} (h : s.atOpcode op) (hop : formatOf op = some (.r make))
    (hp : s.pc.toNat ≤ 254) : fetchInstr s = .ok (make (s.memRead (s.pc.toNat + 1))) := by
  obtain ⟨-, hpc, rfl⟩ := h
  have h1 : fetchOperand s 1 = .ok _ := fetchOperand_of_le (by omega)
  simp [fetchInstr_of_le hpc, decodeWith, hop, h1]

/-- At address 255 the operand byte of a one-register format would stand at 256. -/
theorem fetchInstr_one_operand_top {make : Byte → Instr} (h : s.atOpcode op) (hop : formatOf op = some (.r make))
    (hp : s.pc.toNat = 255) : fetchInstr s = .error (.addressOutOfRange 256) := by
  obtain ⟨-, hpc, rfl⟩ := h
  have h1 : fetchOperand s 1 = .error (.addressOutOfRange 256) := by
    simpa only [hp] using fetchOperand_of_gt (s := s) (k := 1) (by omega)
  simp [fetchInstr_of_le hpc, decodeWith, hop, h1]

/-- An instruction of format R whose meaning checks its register and then takes an effect steps as that format does. -/
theorem stepsAsR_of_withReg {make : Byte → Instr} {effect : Fin 8 → State} (h : s.atOpcode op)
    (hop : formatOf op = some (.r make))
    (hexec : ∀ a, exec (make a) s = withReg a s fun r => .next (effect r)) : s.stepsAsR effect := by
  have hstep (hp : s.pc.toNat ≤ 254) : step s = withReg (s.memRead (s.pc.toNat + 1)) s fun r => .next (effect r) :=
    (step_of_fetch h.1 (fetchInstr_one_operand h hop hp)).trans (hexec _)
  refine ⟨fun hp => ?_, fun hp ha => ?_, fun r hp ha => ?_⟩
  · exact step_of_fetch_error h.1 (fetchInstr_one_operand_top h hop hp)
  · rw [hstep hp, withReg_of_gt ha, State.raise_register]
    rfl
  · rw [hstep hp, eq_regByte ha, withReg_regByte]

/-- An instruction of format RI whose meaning checks its register and then takes an effect steps as that format does. -/
theorem stepsAsRI_of_withReg {make : Byte → Byte → Instr} {effect : Fin 8 → Byte → State} (h : s.atOpcode op)
    (hop : formatOf op = some (.ri make))
    (hexec : ∀ a imm, exec (make a imm) s = withReg a s fun r => .next (effect r imm)) : s.stepsAsRI effect := by
  have hstep (hp : s.pc.toNat ≤ 253) : step s =
      withReg (s.memRead (s.pc.toNat + 1)) s fun r => .next (effect r (s.memRead (s.pc.toNat + 2))) :=
    (step_of_fetch h.1 (fetchInstr_two_operands h (.inr hop) hp)).trans (hexec _ _)
  refine ⟨fun hp => ?_, fun hp ha => ?_, fun r hp ha => ?_⟩
  · exact step_of_fetch_error h.1 (fetchInstr_two_operands_top h (.inr hop) hp)
  · rw [hstep hp, withReg_of_gt ha, State.raise_register]
    rfl
  · rw [hstep hp, eq_regByte ha, withReg_regByte]

/-- PRN steps as format R: the output gains the register. -/
theorem stepsAsR_prn (h : s.atOpcode 0x47) : s.stepsAsR fun r => (s.emit (s.reg r)).advance 2 :=
  stepsAsR_of_withReg h rfl fun _ => rfl

/-- LDI steps as format RI: the register takes the immediate. -/
theorem stepsAsRI_ldi (h : s.atOpcode 0x82) : s.stepsAsRI fun r imm => (s.setReg r imm).advance 3 :=
  stepsAsRI_of_withReg h rfl fun _ _ => rfl

/-- LDI into a register and PRN of that register right after it emit the immediate: the LDI changes no byte of the PRN. -/
theorem step_ldi_step_prn {r : Fin 8} (h : s.atOpcode 0x82) (hp : s.pc.toNat ≤ 251) (hr : s.operand 1 = r.val)
    (hop : s.memRead (s.pc.toNat + 3) = 0x47) (hr' : s.operand 4 = r.val) :
    ∃ t u, step s = .next t ∧ step t = .next u ∧ u.out = s.out ++ [s.memRead (s.pc.toNat + 2)] := by
  obtain ⟨-, -, hldi⟩ := stepsAsRI_ldi h
  have ht := hldi r (by omega) hr
  have hpc : ((s.setReg r (s.memRead (s.pc.toNat + 2))).advance 3).pc.toNat = s.pc.toNat + 3 := by
    rw [State.advance_eq]
    exact Nat.mod_eq_of_lt (by rw [State.setReg_pc]; omega)
  obtain ⟨-, -, hprn⟩ := stepsAsR_prn (s := (s.setReg r (s.memRead (s.pc.toNat + 2))).advance 3)
    ⟨h.1, by omega, by rw [hpc]; exact hop⟩
  have hu := hprn r (by omega) (by rw [State.operand, hpc]; exact hr')
  exact ⟨_, _, ht, hu, by simp⟩

end

/-- Settles O30: LDI is the format RI step that writes the immediate, and its successor stands at the PRN. -/
theorem stepOfLdi : Obligations.StepOfLdi :=
  ⟨fun _ h => by simpa only [State.advance_eq, State.setReg_pc] using stepsAsRI_ldi h,
    fun _ _ h hp hr hop hr' => step_ldi_step_prn h hp hr hop hr'⟩

end Sys2Proof.Machine

/-! ## The text of the output (R20, R83) -/

namespace Sys2Proof.Machine

/-! ### Digits -/

/-- The code of a digit's character gives the digit back. -/
theorem digitChar_toNat {d : Nat} (h : d < 10) : (digitChar d).toNat = 48 + d := by
  interval_cases d <;> rfl

/-- A digit's character lies between `0` and `9`. -/
theorem digitChar_bounds {d : Nat} (h : d < 10) : '0' ≤ digitChar d ∧ digitChar d ≤ '9' := by
  interval_cases d <;> decide

/-- Only the digit 0 is written `0`. -/
theorem digitChar_ne_zero {d : Nat} (h : d < 10) (hd : d ≠ 0) : digitChar d ≠ '0' := fun he => by
  have : 48 + d = 48 := (digitChar_toNat h).symm.trans (congrArg Char.toNat he)
  omega

/-- The text `cs` is the decimal numeral of `n` in one, two or three digits, the first of several not 0. -/
inductive IsNumeral : Nat → List Char → Prop
  | one {d : Nat} (hd : d < 10) : IsNumeral d [digitChar d]
  | two {t d : Nat} (ht : t < 10) (ht0 : t ≠ 0) (hd : d < 10) : IsNumeral (10 * t + d) [digitChar t, digitChar d]
  | three {h t d : Nat} (hh : h < 10) (hh0 : h ≠ 0) (ht : t < 10) (hd : d < 10) :
      IsNumeral (10 * (10 * h + t) + d) [digitChar h, digitChar t, digitChar d]

/-- The text of a byte is its numeral: one digit below 10, two below 100, three from there. -/
theorem decimalText_isNumeral (v : Byte) : IsNumeral v.toNat (decimalText v) := by
  have hv : v.toNat < 256 := v.isLt
  unfold decimalText
  generalize v.toNat = n at hv ⊢
  obtain h1 | h2 | h3 : n < 10 ∨ (10 ≤ n ∧ n < 100) ∨ 100 ≤ n := by omega
  · have hn : n % 10 = n := Nat.mod_eq_of_lt h1
    simpa [show ¬ 100 ≤ n by omega, show ¬ 10 ≤ n by omega, hn] using IsNumeral.one h1
  · have hnum := IsNumeral.two (t := n / 10 % 10) (d := n % 10) (by omega) (by omega) (by omega)
    rw [show 10 * (n / 10 % 10) + n % 10 = n by omega] at hnum
    simpa [show ¬ 100 ≤ n by omega, h2.1] using hnum
  · have hnum := IsNumeral.three (h := n / 100) (t := n / 10 % 10) (d := n % 10) (by omega) (by omega) (by omega) (by omega)
    rw [show 10 * (10 * (n / 100) + n / 10 % 10) + n % 10 = n by omega] at hnum
    simpa [h3, show 10 ≤ n by omega] using hnum

section
variable {n : Nat} {cs : List Char}

theorem IsNumeral.length_bounds (h : IsNumeral n cs) : 1 ≤ cs.length ∧ cs.length ≤ 3 := by
  cases h <;> simp

/-- The digits of a numeral, read in base ten, give the number back. -/
theorem IsNumeral.foldl_eq (h : IsNumeral n cs) : cs.foldl (fun n c => 10 * n + (c.toNat - 48)) 0 = n := by
  cases h with
  | one hd => simp [digitChar_toNat hd]
  | two ht _ hd => simp [digitChar_toNat ht, digitChar_toNat hd]
  | three hh _ ht hd => simp [digitChar_toNat hh, digitChar_toNat ht, digitChar_toNat hd]

theorem IsNumeral.mem_bounds (h : IsNumeral n cs) : ∀ c ∈ cs, '0' ≤ c ∧ c ≤ '9' := by
  cases h with
  | one hd => simpa using digitChar_bounds hd
  | two ht _ hd => simpa using ⟨digitChar_bounds ht, digitChar_bounds hd⟩
  | three hh _ ht hd => simpa using ⟨digitChar_bounds hh, digitChar_bounds ht, digitChar_bounds hd⟩

/-- A numeral has no leading zero, unless it is that of 0. -/
theorem IsNumeral.head?_ne (h : IsNumeral n cs) (hn : n ≠ 0) : cs.head? ≠ some '0' := by
  cases h with
  | one hd => simpa using digitChar_ne_zero hd hn
  | two ht ht0 _ => simpa using digitChar_ne_zero ht ht0
  | three hh hh0 _ _ => simpa using digitChar_ne_zero hh hh0

end

/-! ### Lines -/

/-- The text of one value is its line. -/
theorem outText_singleton (v : Byte) : outText [v] = decimalText v ++ ['\n'] := rfl

/-- Texts are concatenated (R83). -/
theorem outText_append (xs ys : List Byte) : outText (xs ++ ys) = outText xs ++ outText ys := by
  induction xs with
  | nil => rfl
  | cons x xs ih => simp [outText, ih]

/-- One more value adds its line at the end. -/
theorem outText_concat (out : List Byte) (v : Byte) : outText (out ++ [v]) = outText out ++ decimalText v ++ ['\n'] := by
  rw [outText_append, outText_singleton, List.append_assoc]

/-- Settles O31: PRN is the format R step that emits the register, and the text grows by one line of one to three digits. -/
theorem stepOfPrn : Obligations.StepOfPrn :=
  ⟨fun _ h => by simpa only [State.advance_eq, State.emit] using stepsAsR_prn h,
    fun out v => ⟨outText_concat out v, (decimalText_isNumeral v).length_bounds⟩, by decide, by decide⟩

/-- Settles O52: the text is a concatenation of lines, and each value's digits are its numeral. -/
theorem outputTextIsDecimalLines : Obligations.OutputTextIsDecimalLines := by
  refine ⟨outText_append, rfl, by decide, outText_singleton, fun v => ?_⟩
  have hnum := decimalText_isNumeral v
  have hne (hv : v ≠ 0) : v.toNat ≠ 0 := fun h => hv (BitVec.eq_of_toNat_eq h)
  exact ⟨hnum.foldl_eq, hnum.mem_bounds, fun hv => hnum.head?_ne (hne hv), by decide⟩

end Sys2Proof.Machine

/-! ## Control: RET, JMP, HLT, and CALL with RET (R90 to R92, R95, R97) -/

namespace Sys2Proof.Machine

/-- The stack pointer's increment, as a number that wraps at 256 (D2). -/
theorem State.incSp_eq (s : State) : s.incSp = s.setReg 7 (BitVec.ofNat 8 (((s.reg 7).toNat + 1) % 256)) :=
  congrArg (s.setReg 7) (byte_add_eq _ 1)

/-- A jump's target, as a number. -/
theorem State.jump_eq (s : State) (v : Byte) : s.jump v = { s with pc := BitVec.ofNat 9 v.toNat } := by
  rw [State.jump, setWidth_nine]

/-- The increment of the stack pointer after a push undoes the decrement, so of the push only the stored byte is left. -/
theorem State.incSp_storeTop_decSp (s : State) (v : Byte) :
    (s.decSp.storeTop v).incSp = s.memWrite s.decSp.stackAddr v := by
  refine State.ext_reg (fun r => ?_) rfl rfl rfl rfl rfl rfl rfl
  by_cases hr : r = Config.spIndex
  · subst hr; simp
  · simp [hr]

/-- Only HLT's effect changes the run state. -/
theorem Effect.run_eq {s t : State} {i : Instr} (h : Effect s i t) (hi : i ≠ .hlt) : t.run = s.run := by
  cases h with
  | hlt => exact absurd rfl hi
  | jeq r | jne r => split <;> rfl
  | _ => rfl

/-- A step of a running core that ends HALTED is a HLT. -/
theorem atOpcode_hlt_of_halted {s t : State} (hr : s.run = .running) (h : step s = .next t) (ht : t.run = .halted) :
    s.atOpcode 0x01 := by
  rcases step_next_cases h with ⟨hn, -⟩ | ⟨-, tr, -, rfl⟩ | ⟨-, i, hf, hx⟩
  · exact absurd hr hn
  · cases ht
  · rcases exec_next_cases hx with he | ⟨tr, rfl⟩
    · by_cases hi : i = .hlt
      · subst hi
        exact atOpcode_of_fetchInstr hr hf rfl
      · cases hr.symm.trans ((he.run_eq hi).symm.trans ht)
    · cases ht

/-- A HALTED core keeps its state. -/
theorem eq_of_step_halted {s t : State} (hr : s.run = .halted) (h : step s = .next t) : t = s := by
  cases (step_stopped (by simp [hr])).symm.trans h
  rfl

section
variable {s : State} {op : Byte}

/-- A format without operands is fetched at every address of the memory, 255 included. -/
theorem fetchInstr_no_operand {i : Instr} (h : s.atOpcode op) (hop : formatOf op = some (.z i)) :
    fetchInstr s = .ok i := by
  obtain ⟨-, hpc, rfl⟩ := h
  simp [fetchInstr_of_le hpc, decodeWith, hop]

/-- RET steps to the byte at the stack pointer. -/
theorem step_ret (h : s.atOpcode 0x11) : step s = .next (s.incSp.jump s.loadTop) :=
  (step_of_fetch h.1 (fetchInstr_no_operand h rfl)).trans (exec_ret s)

/-- HLT steps past itself and stops. -/
theorem step_hlt (h : s.atOpcode 0x01) : step s = .next (s.advance 1).halt :=
  (step_of_fetch h.1 (fetchInstr_no_operand h rfl)).trans (exec_hlt s)

/-- CALL steps to its register after the decrement, with the return address on the stack. -/
theorem step_call {a : Fin 8} (h : s.atOpcode 0x50) (hp : s.pc.toNat ≤ 253) (ha : s.operand 1 = a.val) :
    step s = .next ((s.decSp.storeTop (BitVec.ofNat 8 (s.pc.toNat + 2))).jump (s.decSp.reg a)) := by
  rw [step_of_fetch h.1 (fetchInstr_one_operand h rfl (by omega)), eq_regByte ha, exec_call s a hp]

/-- A RET at the target of a CALL, outside the stack slot, pops the return address: of the pair only the jump to the return
address and its byte in the stack slot are left. -/
theorem step_call_step_ret {a : Fin 8} (hwf : s.mem.wf) (h : s.atOpcode 0x50) (hp : s.pc.toNat ≤ 253)
    (ha : s.operand 1 = a.val) (ha7 : a ≠ 7) (hret : s.memRead (s.reg a).toNat = 0x11)
    (hslot : s.decSp.stackAddr ≠ (s.reg a).toNat) :
    ∃ t, step s = .next t ∧ step t = .next
      ((s.memWrite s.decSp.stackAddr (BitVec.ofNat 8 (s.pc.toNat + 2))).jump (BitVec.ofNat 8 (s.pc.toNat + 2))) := by
  have hcall := step_call h hp ha
  rw [State.decSp_reg_ne s ha7] at hcall
  refine ⟨_, hcall, ?_⟩
  generalize hv : (BitVec.ofNat 8 (s.pc.toNat + 2) : Byte) = v
  have hpc : ((s.decSp.storeTop v).jump (s.reg a)).pc.toNat = (s.reg a).toNat :=
    BitVec.toNat_setWidth_of_le (by decide)
  have hop : ((s.decSp.storeTop v).jump (s.reg a)).atOpcode 0x11 := by
    refine ⟨h.1, by omega, ?_⟩
    rw [hpc, State.jump_memRead, State.storeTop_memRead_ne _ _ hslot.symm]
    exact hret
  have htop : ((s.decSp.storeTop v).jump (s.reg a)).loadTop = v := State.storeTop_memRead_same (s := s.decSp) hwf v
  rw [step_ret hop, htop, ← State.incSp_storeTop_decSp]
  rfl

end

/-- Settles O38: RET's step over the named operations, its stack pointer and target as numbers. -/
theorem stepOfRet : Obligations.StepOfRet := fun s h => by
  rw [step_ret h, State.jump_eq, State.incSp_eq]
  rfl

/-- Settles O39: JMP is the format R step that jumps to the register. -/
theorem stepOfJmp : Obligations.StepOfJmp := fun s h => by
  simpa only [State.jump_eq] using stepsAsR_of_withReg (effect := fun a => s.jump (s.reg a)) h rfl fun _ => rfl

/-- Settles O42: HLT's step over the named operations; a stopped core keeps its state; only HLT's effect changes the run
state to HALTED, and a fault changes it to FAULTED. -/
theorem stepOfHlt : Obligations.StepOfHlt :=
  ⟨fun s h => by rw [step_hlt h, State.advance_eq]; rfl, fun _ _ => eq_of_step_halted,
    fun _ _ => atOpcode_hlt_of_halted⟩

/-- Settles O49: CALL and RET together are the jump to `pc + 2` and the store of that byte, which leave everything else. -/
theorem callThenRetRoundTrip : Obligations.CallThenRetRoundTrip := by
  intro s a hwf h hp ha ha7 hret hslot
  obtain ⟨t, ht, hu⟩ := step_call_step_ret hwf h hp ha ha7 hret hslot
  have hbyte : (BitVec.ofNat 8 (s.pc.toNat + 2) : Byte).toNat = s.pc.toNat + 2 := Nat.mod_eq_of_lt (by omega)
  refine ⟨t, _, ht, hu, ?_, ?_, fun r _ => rfl, fun addr hne => ?_, rfl, rfl, rfl, rfl, rfl⟩
  · rw [State.jump_pc, BitVec.toNat_setWidth_of_le (by decide), hbyte]
  · rw [State.jump_memRead, State.memWrite_memRead_same hwf, hbyte]
  · rw [State.jump_memRead, State.memWrite_memRead_ne _ _ hne]

end Sys2Proof.Machine

/-! ## Decoding and encoding (R45 to R50) -/

namespace Sys2Proof

/-- The instructions that a row of the opcode map makes are encoded as the row's opcode and their operand bytes. -/
def OpcodeRow.Encodes (row : OpcodeRow) : Prop :=
  match row.format with
  | .z make => encode make = [row.opcode]
  | .r make => ∀ a, encode (make a) = [row.opcode, a]
  | .rr make | .ri make => ∀ a b, encode (make a b) = [row.opcode, a, b]

/-- Every row of the opcode map agrees with the encoder. -/
theorem opcodeTable_encodes : ∀ row ∈ opcodeTable, row.Encodes := by
  simp [opcodeTable, OpcodeRow.Encodes, encode]

/-- The format of an opcode agrees with the encoder. -/
theorem encodes_of_formatOf {op : Byte} {f : Format} (h : formatOf op = some f) : OpcodeRow.Encodes ⟨op, f⟩ :=
  opcodeTable_encodes _ (formatOf_some h)

/-- An operand byte that was delivered stands at its place in the list. -/
theorem operandOf_ok {rest : List Byte} {k : Nat} {b : Byte} (h : operandOf rest k = .ok b) :
    rest[k - 1]? = some b := by
  unfold operandOf at h
  split at h <;> simp_all

/-- The bytes that the decoder read are the encoding of the instruction it made. -/
theorem encode_of_decodeWith {tail : List Byte} {op : Byte} {i : Instr}
    (h : decodeWith .illegalInstruction (operandOf tail) op = .ok i) : ∃ rest, op :: tail = encode i ++ rest := by
  rcases decodeWith_cases h with hz | ⟨make, a, hr, ha, rfl⟩ | ⟨make, a, b, hrr, ha, hb, rfl⟩
  · have henc : encode i = [op] := encodes_of_formatOf hz
    exact ⟨tail, by simp [henc]⟩
  · have henc : encode (make a) = [op, a] := encodes_of_formatOf hr a
    obtain ⟨rest, rfl⟩ := List.head?_eq_some_iff.mp ((List.head?_eq_getElem? ..).trans (operandOf_ok ha))
    exact ⟨rest, by simp [henc]⟩
  · have henc : encode (make a b) = [op, a, b] :=
      hrr.elim (fun hf => encodes_of_formatOf hf a b) fun hf => encodes_of_formatOf hf a b
    obtain ⟨rest, rfl⟩ := List.head?_eq_some_iff.mp ((List.head?_eq_getElem? ..).trans (operandOf_ok ha))
    obtain ⟨rest, rfl⟩ := List.head?_eq_some_iff.mp ((List.head?_eq_getElem? ..).trans (operandOf_ok hb))
    exact ⟨rest, by simp [henc]⟩

/-- Only the encoding of an instruction, followed by some rest, decodes to that instruction and that rest. -/
theorem eq_encode_append_of_decode {bytes rest : List Byte} {i : Instr} (h : decode bytes = .ok (i, rest)) :
    bytes = encode i ++ rest := by
  have hbytes : ∃ rest', bytes = encode i ++ rest' := by
    cases bytes with
    | nil => cases h
    | cons op tail =>
      simp only [decode] at h
      split at h
      · cases h
      · next hd => cases h; exact encode_of_decodeWith hd
  obtain ⟨rest', rfl⟩ := hbytes
  obtain ⟨-, rfl⟩ := Prod.mk.inj (Except.ok.inj ((decode_encode_append i rest').symm.trans h))
  rfl

/-- Settles O5: the decoder gives every encoding back, and each row of the opcode map encodes what it makes, so the bytes that
were read are an encoding; the rest is then the one that encoding leaves. -/
theorem decodeIsExactlyTheInverseOfEncode : Obligations.DecodeIsExactlyTheInverseOfEncode :=
  fun _ i rest => ⟨eq_encode_append_of_decode, fun h => h ▸ decode_encode_append i rest⟩

/-- Settles O4: the eight words, each the encoding of its instruction and the bytes after it. -/
theorem specWordsDecodeToTheirInstructions : Obligations.SpecWordsDecodeToTheirInstructions :=
  ⟨decode_encode_append (.ldi 0 8) [], decode_encode_append (.prn 7) [], decode_encode_append (.add 1 2) [],
    decode_encode_append (.cmp 2 1) [], decode_encode_append (.push 3) [], decode_encode_append (.call 4) [],
    decode_encode_append .ret [], decode_encode_append .hlt [0xFF]⟩

end Sys2Proof

/-! ## `pc` as a number (R14, R96) -/

namespace Sys2Proof.Machine

/-- `pc` after an increment that stays below 512. -/
theorem State.advance_pc_toNat {s : State} {n : Nat} (h : s.pc.toNat + n < 512) :
    (s.advance n).pc.toNat = s.pc.toNat + n := by
  rw [State.advance_eq]
  exact Nat.mod_eq_of_lt h

/-- `pc` after a jump is the 8-bit target. -/
theorem State.jump_pc_toNat (s : State) (v : Byte) : (s.jump v).pc.toNat = v.toNat :=
  BitVec.toNat_setWidth_of_le (by decide)

end Sys2Proof.Machine

/-! ## The faults of a step, in the order of the checks (R102, R103) -/

namespace Sys2Proof.Machine

/-! ### The opcodes by their number of operand bytes (R51) -/

/-- The opcodes with one operand byte, a register. -/
abbrev oneOperandOpcodes : List Byte := [0x45, 0x46, 0x47, 0x50, 0x54, 0x55, 0x56]

/-- The opcodes with two operand bytes, LDI's first. -/
abbrev twoOperandOpcodes : List Byte := [0x82, 0xA0, 0xA2, 0xA7]

theorem opcodes_cases {op : Byte} (h : op ∈ opcodes) :
    op ∈ ([0x01, 0x11] : List Byte) ∨ op ∈ oneOperandOpcodes ∨ op ∈ twoOperandOpcodes := by
  fin_cases h <;> decide

theorem formatOf_noOperand {op : Byte} (h : op ∈ ([0x01, 0x11] : List Byte)) : ∃ i, formatOf op = some (.z i) := by
  fin_cases h <;> exact ⟨_, rfl⟩

/-- An instruction with one operand checks it as a register first. -/
theorem formatOf_oneOperand {op : Byte} (h : op ∈ oneOperandOpcodes) :
    ∃ make, formatOf op = some (.r make) ∧ ∀ a s, ∃ f, exec (make a) s = withReg a s f := by
  fin_cases h <;> exact ⟨_, rfl, fun _ _ => ⟨_, rfl⟩⟩

/-- An instruction with two register operands checks both first. -/
theorem formatOf_twoRegisters {op : Byte} (h : op ∈ twoOperandOpcodes) (hldi : op ≠ 0x82) :
    ∃ make, formatOf op = some (.rr make) ∧ ∀ a b s, ∃ f, exec (make a b) s = withRegs a b s f := by
  obtain rfl | hrr := List.mem_cons.mp h
  · exact absurd rfl hldi
  · fin_cases hrr <;> exact ⟨_, rfl, fun _ _ _ => ⟨_, rfl⟩⟩

/-- An instruction with two operands checks the first as a register first. -/
theorem formatOf_twoOperands {op : Byte} (h : op ∈ twoOperandOpcodes) :
    ∃ make, (formatOf op = some (.rr make) ∨ formatOf op = some (.ri make)) ∧
      ∀ a b s, ∃ f, exec (make a b) s = withReg a s f := by
  by_cases hldi : op = 0x82
  · subst hldi
    exact ⟨.ldi, .inr rfl, fun _ _ _ => ⟨_, rfl⟩⟩
  · obtain ⟨make, hf, hexec⟩ := formatOf_twoRegisters h hldi
    exact ⟨make, .inl hf, fun a b s => (hexec a b s).imp' _ fun _ he => he⟩

/-- The first operand byte of an instruction follows an opcode that has operands. -/
theorem encode_of_operand_one {i : Instr} {b : Byte} (h : (encode i)[1]? = some b) :
    ∃ op ∈ oneOperandOpcodes ++ twoOperandOpcodes, (encode i)[0]? = some op := by
  cases i with
  | ret | hlt => cases h
  | _ => exact ⟨_, by decide, rfl⟩

/-- The second operand byte of an instruction other than LDI follows an opcode with two register operands. -/
theorem encode_of_operand_two {i : Instr} {b : Byte} (h : (encode i)[2]? = some b) (hldi : ∀ a imm, i ≠ .ldi a imm) :
    ∃ op ∈ twoOperandOpcodes, op ≠ 0x82 ∧ (encode i)[0]? = some op := by
  cases i with
  | ldi a imm => exact absurd rfl (hldi a imm)
  | add | mul | cmp => exact ⟨_, by decide, by decide, rfl⟩
  | _ => cases h

/-- A fetched instruction stands at `pc` byte for byte, inside the memory. -/
theorem memRead_of_fetchInstr {s : State} {i : Instr} {k : Nat} {b : Byte} (hf : fetchInstr s = .ok i)
    (h : (encode i)[k]? = some b) : s.pc.toNat + k ≤ 255 ∧ s.memRead (s.pc.toNat + k) = b := by
  obtain ⟨hlen, hbytes⟩ := fetchInstr_ok hf
  obtain ⟨hk, rfl⟩ := List.getElem?_eq_some_iff.mp h
  rw [← encode_length] at hlen
  exact ⟨by omega, hbytes k hk⟩

/-! ### All the faults a step can raise -/

/-- The checks of a step that can fail, each with the fault it raises. -/
inductive StepFault (s : State) : Trap → Prop
  | opcodeAddress (hp : 255 < s.pc.toNat) : StepFault s (.addressOutOfRange s.pc.toNat)
  | opcode (hp : s.pc.toNat ≤ 255) (hop : s.memRead s.pc.toNat ∉ opcodes) :
      StepFault s (.illegalInstruction (s.memRead s.pc.toNat))
  | operandAddress1 (hp : s.pc.toNat = 255) (hop : s.memRead s.pc.toNat ∈ oneOperandOpcodes ++ twoOperandOpcodes) :
      StepFault s (.addressOutOfRange 256)
  | operandAddress2 (hp : s.pc.toNat = 254) (hop : s.memRead s.pc.toNat ∈ twoOperandOpcodes) :
      StepFault s (.addressOutOfRange 256)
  | index1 (hp : s.pc.toNat ≤ 254) (hop : s.memRead s.pc.toNat ∈ oneOperandOpcodes ++ twoOperandOpcodes)
      (hb : 7 < s.operand 1) : StepFault s (.registerIndexOutOfRange (s.memRead (s.pc.toNat + 1)))
  | index2 (hp : s.pc.toNat ≤ 253) (hop : s.memRead s.pc.toNat ∈ twoOperandOpcodes) (hldi : s.memRead s.pc.toNat ≠ 0x82)
      (hb : 7 < s.operand 2) : StepFault s (.registerIndexOutOfRange (s.memRead (s.pc.toNat + 2)))
  | returnAddress (hp : s.pc.toNat = 254) (hop : s.memRead s.pc.toNat = 0x50) : StepFault s (.addressOutOfRange 256)

/-- A fault of the fetch is that of one of the first four checks. -/
theorem stepFault_of_fetchInstr {s : State} {tr : Trap} (hr : s.run = .running) (h : fetchInstr s = .error tr) :
    StepFault s tr := by
  obtain hp | hp : 255 < s.pc.toNat ∨ s.pc.toNat ≤ 255 := by omega
  · cases (fetchInstr_of_gt hp).symm.trans h
    exact .opcodeAddress hp
  by_cases hop : s.memRead s.pc.toNat ∈ opcodes
  · have hat : s.atOpcode (s.memRead s.pc.toNat) := ⟨hr, hp, rfl⟩
    obtain h0 | h1 | h2 := opcodes_cases hop
    · obtain ⟨i, hf⟩ := formatOf_noOperand h0
      cases (fetchInstr_no_operand hat hf).symm.trans h
    · obtain ⟨make, hf, -⟩ := formatOf_oneOperand h1
      obtain hp' | hp' : s.pc.toNat = 255 ∨ s.pc.toNat ≤ 254 := by omega
      · cases (fetchInstr_one_operand_top hat hf hp').symm.trans h
        exact .operandAddress1 hp' (List.mem_append_left _ h1)
      · cases (fetchInstr_one_operand hat hf hp').symm.trans h
    · obtain ⟨make, hf, -⟩ := formatOf_twoOperands h2
      obtain hp' | hp' : 254 ≤ s.pc.toNat ∨ s.pc.toNat ≤ 253 := by omega
      · cases (fetchInstr_two_operands_top hat hf hp').symm.trans h
        obtain hp' | hp' : s.pc.toNat = 254 ∨ s.pc.toNat = 255 := by omega
        · exact .operandAddress2 hp' h2
        · exact .operandAddress1 hp' (List.mem_append_right _ h2)
      · cases (fetchInstr_two_operands hat hf hp').symm.trans h
  · cases ((fetchInstr_of_le hp).trans (decodeWith_illegal _ _ (formatOf_eq_none_iff.mpr hop))).symm.trans h
    exact .opcode hp hop

/-- All that `exec` can answer for the instruction at `pc`: its effect, or the fault of one of the last three checks. -/
theorem exec_fetched_cases {s t : State} {i : Instr} (hf : fetchInstr s = .ok i) (h : exec i s = .next t) :
    Effect s i t ∨ ∃ tr, StepFault s tr ∧ t = s.raise tr := by
  rcases exec_cases i s with ⟨u, hu, he⟩ | ⟨b, -, hb, henc | ⟨henc, hldi⟩, hu⟩ | ⟨r, rfl, hp, hu⟩ <;>
    cases hu.symm.trans h
  · exact .inl he
  · obtain ⟨op, hop, henc0⟩ := encode_of_operand_one henc
    obtain ⟨hp, rfl⟩ := memRead_of_fetchInstr hf henc
    obtain ⟨-, rfl⟩ := memRead_of_fetchInstr hf henc0
    exact .inr ⟨_, .index1 (by omega) hop hb, rfl⟩
  · obtain ⟨op, hop, hne, henc0⟩ := encode_of_operand_two henc hldi
    obtain ⟨hp, rfl⟩ := memRead_of_fetchInstr hf henc
    obtain ⟨-, rfl⟩ := memRead_of_fetchInstr hf henc0
    exact .inr ⟨_, .index2 (by omega) hop hne hb, rfl⟩
  · obtain ⟨hp', -⟩ := memRead_of_fetchInstr (k := 1) hf rfl
    obtain ⟨-, hop⟩ := memRead_of_fetchInstr (k := 0) hf rfl
    have hpc : s.pc.toNat = 254 := by omega
    refine .inr ⟨_, .returnAddress hpc hop, ?_⟩
    rw [hpc]

/-- All that a step of a running core can answer: the fault of a failing check, or the effect of the instruction at `pc`. -/
theorem step_running_cases {s t : State} (hr : s.run = .running) (h : step s = .next t) :
    (∃ tr, StepFault s tr ∧ t = s.raise tr) ∨ ∃ i, fetchInstr s = .ok i ∧ Effect s i t := by
  rcases step_next_cases h with ⟨hn, -⟩ | ⟨-, tr, hf, rfl⟩ | ⟨-, i, hf, hx⟩
  · exact absurd hr hn
  · exact .inl ⟨tr, stepFault_of_fetchInstr hr hf, rfl⟩
  · exact (exec_fetched_cases hf hx).symm.imp_right fun he => ⟨i, hf, he⟩

/-- An effect never faults. -/
theorem Effect.run_ne_faulted {s t : State} {i : Instr} (h : Effect s i t) (hr : s.run = .running) : t.run ≠ .faulted := by
  by_cases hi : i = .hlt
  · subst hi
    cases h
    exact RunState.noConfusion
  · rw [h.run_eq hi, hr]
    exact RunState.noConfusion

/-- No effect touches the fault record. -/
theorem Effect.record_eq {s t : State} {i : Instr} (h : Effect s i t) :
    t.faultCause = s.faultCause ∧ t.faultInfo = s.faultInfo := by
  cases h with
  | jeq r | jne r => split <;> exact ⟨rfl, rfl⟩
  | _ => exact ⟨rfl, rfl⟩

theorem Trap.cause_ne_none (tr : Trap) : tr.cause ≠ .none := by
  cases tr <;> exact FaultCause.noConfusion

/-- A step that ends FAULTED raised the fault of a failing check. -/
theorem stepFault_of_faulted {s t : State} (hr : s.run = .running) (h : step s = .next t) (ht : t.run = .faulted) :
    ∃ tr, StepFault s tr ∧ t = s.raise tr :=
  (step_running_cases hr h).resolve_right fun ⟨_, _, he⟩ => he.run_ne_faulted hr ht

end Sys2Proof.Machine

namespace Sys2Proof.Machine

/-! ### Each failing check, given the earlier ones, raises its fault -/

section
variable {s : State}

/-- A step faults at the opcode fetch above address 255. -/
theorem step_opcodeAddress (hr : s.run = .running) (hp : 255 < s.pc.toNat) :
    step s = .next (s.faultedWith .addressOutOfRange s.pc.toNat) :=
  step_of_fetch_error hr (fetchInstr_of_gt hp)

/-- An opcode with operands, at 255, faults at the address of the first. -/
theorem step_operandAddress1 {op : Byte} (h : s.atOpcode op) (hp : s.pc.toNat = 255)
    (hop : op ∈ oneOperandOpcodes ++ twoOperandOpcodes) :
    step s = .next (s.faultedWith .addressOutOfRange 256) := by
  obtain h1 | h2 := List.mem_append.mp hop
  · obtain ⟨make, hf, -⟩ := formatOf_oneOperand h1
    exact step_of_fetch_error h.1 (fetchInstr_one_operand_top h hf hp)
  · obtain ⟨make, hf, -⟩ := formatOf_twoOperands h2
    exact step_of_fetch_error h.1 (fetchInstr_two_operands_top h hf (by omega))

/-- An opcode with two operands, at 254, faults at the address of the second. -/
theorem step_operandAddress2 {op : Byte} (h : s.atOpcode op) (hp : s.pc.toNat = 254) (hop : op ∈ twoOperandOpcodes) :
    step s = .next (s.faultedWith .addressOutOfRange 256) := by
  obtain ⟨make, hf, -⟩ := formatOf_twoOperands hop
  exact step_of_fetch_error h.1 (fetchInstr_two_operands_top h hf (by omega))

/-- With its operands inside the memory, an instruction checks the first as a register. -/
theorem step_index1 {op : Byte} (h : s.atOpcode op)
    (hop : (s.pc.toNat ≤ 254 ∧ op ∈ oneOperandOpcodes) ∨ (s.pc.toNat ≤ 253 ∧ op ∈ twoOperandOpcodes))
    (hb : 7 < s.operand 1) : step s = .next (s.faultedWith .registerIndexOutOfRange (s.operand 1)) := by
  have hstep : ∃ f, step s = withReg (s.memRead (s.pc.toNat + 1)) s f := by
    obtain ⟨hp, h1⟩ | ⟨hp, h2⟩ := hop
    · obtain ⟨make, hf, hexec⟩ := formatOf_oneOperand h1
      rw [step_of_fetch h.1 (fetchInstr_one_operand h hf hp)]
      exact hexec _ s
    · obtain ⟨make, hf, hexec⟩ := formatOf_twoOperands h2
      rw [step_of_fetch h.1 (fetchInstr_two_operands h hf hp)]
      exact hexec _ _ s
  obtain ⟨f, hf⟩ := hstep
  rw [hf, withReg_of_gt hb, State.raise_register]
  rfl

/-- With the first operand a register, an instruction with two register operands checks the second. -/
theorem step_index2 {op : Byte} (h : s.atOpcode op) (hp : s.pc.toNat ≤ 253) (hop : op ∈ twoOperandOpcodes)
    (hldi : op ≠ 0x82) (ha : s.operand 1 ≤ 7) (hb : 7 < s.operand 2) :
    step s = .next (s.faultedWith .registerIndexOutOfRange (s.operand 2)) := by
  obtain ⟨make, hf, hexec⟩ := formatOf_twoRegisters hop hldi
  obtain ⟨f, hf'⟩ := hexec (s.memRead (s.pc.toNat + 1)) (s.memRead (s.pc.toNat + 2)) s
  obtain ⟨r, hr⟩ := exists_regByte ha
  rw [step_of_fetch h.1 (fetchInstr_two_operands h (.inl hf) hp), hf', hr, withRegs_of_gt_right r hb,
    State.raise_register]
  rfl

/-- A CALL of a register, at 254, faults at its return address. -/
theorem step_returnAddress (h : s.atOpcode 0x50) (hp : s.pc.toNat = 254) (ha : s.operand 1 ≤ 7) :
    step s = .next (s.faultedWith .addressOutOfRange 256) := by
  obtain ⟨r, hr⟩ := exists_regByte ha
  rw [step_of_fetch h.1 (fetchInstr_one_operand h rfl (by omega)), hr, exec_call_top s r (by omega), hp]
  rfl

end

/-- Settles O11: one lemma per check, and every fault of a step is that of a failing check. -/
theorem firstFailingCheckDecidesTheFault : Obligations.FirstFailingCheckDecidesTheFault := by
  intro s hr pc op two three
  have hat (hp : pc ≤ 255) : s.atOpcode op := ⟨hr, hp, rfl⟩
  refine ⟨step_opcodeAddress hr, step_illegal hr, fun hp => step_operandAddress1 (hat hp.le) hp,
    fun hp => step_operandAddress2 (hat (by omega)) hp, fun hop => step_index1 (hat (by omega)) hop,
    fun hp => step_index2 (hat (by omega)) hp, fun hp hop => ?_, fun t h ht => ?_⟩
  · have hcall : s.atOpcode 0x50 := hop ▸ hat (by omega)
    exact step_returnAddress hcall hp
  · obtain ⟨tr, hfault, -⟩ := stepFault_of_faulted hr h ht
    cases hfault with
    | opcodeAddress hp => exact .inl hp
    | opcode _ hop => exact .inr (.inl hop)
    | operandAddress1 hp hop => exact .inr (.inr (.inl ⟨hp, hop⟩))
    | operandAddress2 hp hop => exact .inr (.inr (.inr (.inl ⟨hp, hop⟩)))
    | index1 _ hop hb => exact .inr (.inr (.inr (.inr (.inl ⟨hop, hb⟩))))
    | index2 _ hop hldi hb => exact .inr (.inr (.inr (.inr (.inr (.inl ⟨hop, hldi, hb⟩)))))
    | returnAddress hp hop => exact .inr (.inr (.inr (.inr (.inr (.inr ⟨hp, hop⟩)))))

/-- Settles O10: each of the instructions opens with the check of its first register, and the three with two registers go on to
the check of the second. -/
theorem registerOperandAboveSevenTraps : Obligations.RegisterOperandAboveSevenTraps := by
  intro s a b
  refine ⟨fun ha i hi => ?_, fun ha hb i hi => ?_⟩
  · have hexec : ∃ f, exec i s = withReg a s f := by fin_cases hi <;> exact ⟨_, rfl⟩
    obtain ⟨f, hf⟩ := hexec
    rw [hf, withReg_of_gt ha, State.raise_register]
  · have hexec : ∃ f, exec i s = withRegs a b s f := by fin_cases hi <;> exact ⟨_, rfl⟩
    obtain ⟨f, hf⟩ := hexec
    obtain ⟨r, rfl⟩ := exists_regByte ha
    rw [hf, withRegs_of_gt_right r hb, State.raise_register]

/-- Settles O12: a step that ends FAULTED answers the unchanged state with a fault raised on it. -/
theorem faultingStepChangesOnlyTheRecord : Obligations.FaultingStepChangesOnlyTheRecord := by
  intro s t hr h ht
  obtain ⟨tr, -, rfl⟩ := stepFault_of_faulted hr h ht
  exact ⟨rfl, tr.cause_ne_none⟩

/-- A step has a next state. -/
theorem step_next (s : State) : ∃ t, step s = .next t := by
  by_cases hr : s.run = .running
  · rcases step_cases hr with ⟨tr, -, hs⟩ | ⟨i, -, hs⟩
    · exact ⟨_, hs⟩
    · rw [hs]
      exact exec_next i s
  · exact ⟨s, step_stopped hr⟩

/-- Settles O14: HALTED comes from HLT's effect only; FAULTED comes with the cause of a fault, and no effect writes a cause. -/
theorem runningEndsOnlyByHltOrFault : Obligations.RunningEndsOnlyByHltOrFault := by
  intro s t hr hc h
  have hhlt (hat : s.atOpcode 0x01) : t = (s.advance 1).halt := by
    cases (step_hlt hat).symm.trans h
    rfl
  refine ⟨⟨fun ht => (atOpcode_hlt_of_halted hr h ht).2, fun hat => ?_⟩, fun ht => ?_, ?_⟩
  · rw [hhlt ⟨hr, hat⟩, State.halt_run]
  · have hat := atOpcode_hlt_of_halted hr h ht
    rw [hhlt hat, State.halt_pc]
    exact State.advance_pc_toNat (by omega)
  · rcases step_running_cases hr h with ⟨tr, -, rfl⟩ | ⟨i, -, he⟩
    · exact iff_of_true rfl tr.cause_ne_none
    · exact iff_of_false (he.run_ne_faulted hr) (not_not.mpr (he.record_eq.1.trans hc))

end Sys2Proof.Machine

/-! ## The loop under a budget (R60, R67, R68) -/

namespace Sys2Proof.Machine

/-! ### The loop by the run state and the budget -/

section
variable {s t : State} (n : Nat)

theorem runLoop_halted (hr : s.run = .halted) : runLoop n s = .next (.halted s) := by
  cases n <;> simp [runLoop, hr]

theorem runLoop_faulted (hr : s.run = .faulted) : runLoop n s = .next (.faulted s) := by
  cases n <;> simp [runLoop, hr]

theorem runLoop_zero (hr : s.run = .running) : runLoop 0 s = .next (.unfinished s) := by
  simp [runLoop, hr]

theorem runLoop_succ (hr : s.run = .running) (h : step s = .next t) : runLoop (n + 1) s = runLoop n t := by
  simp [runLoop, hr, h]

end

/-- The state that a result was reached in. -/
def RunResult.state : RunResult → State
  | .halted t | .faulted t | .unfinished t => t

/-- The run state that a result names. -/
def RunResult.run : RunResult → RunState
  | .halted _ => .halted
  | .faulted _ => .faulted
  | .unfinished _ => .running

/-- The loop answers a result that names its state's run state, and keeps it under a larger budget unless it ran out. -/
theorem runLoop_spec (budget : Nat) (s : State) :
    ∃ r, runLoop budget s = .next r ∧ r.state.run = r.run ∧
      (r.run ≠ .running → ∀ more, runLoop (budget + more) s = .next r) := by
  induction budget generalizing s with
  | zero =>
    cases hr : s.run with
    | halted => exact ⟨_, runLoop_halted 0 hr, hr, fun _ more => runLoop_halted _ hr⟩
    | faulted => exact ⟨_, runLoop_faulted 0 hr, hr, fun _ more => runLoop_faulted _ hr⟩
    | running => exact ⟨_, runLoop_zero hr, hr, fun hne => absurd rfl hne⟩
  | succ n ih =>
    cases hr : s.run with
    | halted => exact ⟨_, runLoop_halted _ hr, hr, fun _ more => runLoop_halted _ hr⟩
    | faulted => exact ⟨_, runLoop_faulted _ hr, hr, fun _ more => runLoop_faulted _ hr⟩
    | running =>
      obtain ⟨t, ht⟩ := step_next s
      obtain ⟨r, hrun, hreached, hmore⟩ := ih t
      refine ⟨r, (runLoop_succ n hr ht).trans hrun, hreached, fun hne more => ?_⟩
      rw [Nat.add_right_comm, runLoop_succ _ hr ht, hmore hne]

/-- Settles O13: a step answers, and so does every budget of steps. -/
theorem stepAlwaysAnswersANextState : Obligations.StepAlwaysAnswersANextState :=
  ⟨step_next, fun budget s => (runLoop_spec budget s).imp fun _ h => h.1⟩

theorem runLoop_result {budget : Nat} {s : State} {r : RunResult} (h : runLoop budget s = .next r) :
    r.state.run = r.run ∧ (r.run ≠ .running → ∀ more, runLoop (budget + more) s = .next r) := by
  obtain ⟨r', h', hr⟩ := runLoop_spec budget s
  cases h'.symm.trans h
  exact hr

/-- Settles O54: a run that ended keeps its end under every larger budget, so two ends of one state's runs are the same. -/
theorem budgetNeverChangesTheOutcome : Obligations.BudgetNeverChangesTheOutcome := by
  have hhalted {budget s t} (h : runLoop budget s = .next (.halted t)) := (runLoop_result h).2 RunState.noConfusion
  have hfaulted {budget s t} (h : runLoop budget s = .next (.faulted t)) := (runLoop_result h).2 RunState.noConfusion
  refine ⟨fun _ _ _ h => (runLoop_result h).1, fun _ _ t h => ?_, fun _ _ _ h => ⟨(runLoop_result h).1, hfaulted h⟩, ?_⟩
  · have ht : t.run = .halted := (runLoop_result h).1
    exact ⟨ht, by simp [State.safe, ht], hhalted h⟩
  · rintro s budget ⟨t, h⟩ other u hu
    have hagree := (hhalted h other).symm.trans (Nat.add_comm budget other ▸ hfaulted hu budget)
    cases hagree

end Sys2Proof.Machine

/-! ## Reset, launch and the invariant (R14, R17, R23, R24, R101) -/

namespace Sys2Proof.Machine

/-! ### Reset and launch -/

/-- Settles O2: the reset event forgets its argument, and a core that is not running stays as it is. -/
theorem onlyResetLeavesAStoppedState : Obligations.OnlyResetLeavesAStoppedState :=
  ⟨fun _ => rfl, fun s h => step_stopped (by rcases h with h | h <;> simp [h])⟩

/-- An address past a launched image reads 0. -/
theorem launch_memRead_above {image : List Byte} {s : State} (h : launch image = some s) {i : Nat}
    (hi : image.length ≤ i) : s.memRead i = 0x00 := by
  obtain ⟨-, rfl⟩ := launch_eq_some.mp h
  exact Memory.read_load_above [] image (by omega)

/-- Settles O3: an image that fits is loaded over the reset state, a longer one is refused, and over no image the first opcode byte
is the reset value 0. -/
theorem launchIsResetPlusImage : Obligations.LaunchIsResetPlusImage := by
  refine ⟨fun image hlen => ?_, fun image hlen => ?_, fun s h => ?_⟩
  · have h := launch_eq_some.mpr ⟨hlen, rfl⟩
    exact ⟨_, h, rfl, fun i hi => launch_memRead h hi, fun i hi => launch_memRead_above h hi⟩
  · exact if_neg (Nat.not_le_of_lt hlen)
  · obtain ⟨-, rfl⟩ := launch_eq_some.mp h
    exact step_illegal rfl (by decide) (by decide)

/-- The reset state with any canonical memory satisfies the invariant. -/
theorem State.Inv.reset {m : Memory} (h : m.wf) : State.Inv { State.reset with mem := m } where
  memCanonical := h
  pcBound := Nat.zero_le _
  recordClear _ := ⟨rfl, rfl⟩
  recordSet := RunState.noConfusion
  haltedPastHlt := RunState.noConfusion

/-- Every launched state satisfies the invariant. -/
theorem State.Inv.launched {image : List Byte} {s : State} (h : launch image = some s) : s.Inv := by
  obtain ⟨-, rfl⟩ := launch_eq_some.mp h
  exact .reset (Memory.load_wf State.reset_wf 0 image)

/-- Settles O16: both are the reset state with a canonical memory. -/
theorem resetAndLaunchedStatesSatisfyTheInvariant : Obligations.ResetAndLaunchedStatesSatisfyTheInvariant :=
  ⟨.reset State.reset_wf, fun _ _ => State.Inv.launched⟩

/-! ### A step keeps the invariant -/

/-- The record of every fault of a step is that of the instruction at `pc`. -/
theorem StepFault.recordExplained {s : State} {tr : Trap} (h : StepFault s tr) (hpc : s.pc.toNat ≤ 256) :
    (s.raise tr).recordExplained := by
  cases h with
  | opcodeAddress hp =>
    have h256 : s.pc.toNat = 256 := by omega
    rw [h256]
    exact ⟨rfl, by rw [State.raise_pc]; omega⟩
  | opcode hp hop => exact ⟨hp, hop, rfl⟩
  | operandAddress1 hp | operandAddress2 hp | returnAddress hp => exact ⟨rfl, by rw [State.raise_pc]; omega⟩
  | index1 hp _ hb =>
    have hinfo : (s.raise (.registerIndexOutOfRange (s.memRead (s.pc.toNat + 1)))).faultInfo.toNat = s.operand 1 :=
      BitVec.toNat_setWidth_of_le (by decide)
    exact ⟨hinfo ▸ hb, .inl ⟨hp, hinfo⟩⟩
  | index2 hp _ _ hb =>
    have hinfo : (s.raise (.registerIndexOutOfRange (s.memRead (s.pc.toNat + 2)))).faultInfo.toNat = s.operand 2 :=
      BitVec.toNat_setWidth_of_le (by decide)
    exact ⟨hinfo ▸ hb, .inr ⟨hp, hinfo⟩⟩

/-- Raising an explained fault keeps the invariant. -/
theorem State.Inv.raise {s : State} (h : s.Inv) {tr : Trap} (hrec : (s.raise tr).recordExplained) : (s.raise tr).Inv where
  memCanonical := h.memCanonical
  pcBound := h.pcBound
  recordClear hrun := absurd rfl hrun
  recordSet _ := hrec
  haltedPastHlt := RunState.noConfusion

/-- An effect moves `pc` past the instruction or to an 8-bit target. -/
theorem Effect.pc_cases {s t : State} {i : Instr} (h : Effect s i t) :
    t.pc = s.pc + BitVec.ofNat 9 i.length ∨ ∃ v : Byte, t.pc = v.setWidth 9 := by
  cases h with
  | jeq r =>
    split
    · exact .inr ⟨_, rfl⟩
    · exact .inl rfl
  | jne r =>
    split
    · exact .inl rfl
    · exact .inr ⟨_, rfl⟩
  | call r | ret | jmp r => exact .inr ⟨_, rfl⟩
  | _ => exact .inl rfl

/-- The effect of an instruction inside the memory leaves `pc` at most 256. -/
theorem Effect.pc_le {s t : State} {i : Instr} (h : Effect s i t) (hlen : s.pc.toNat + i.length ≤ 256) :
    t.pc.toNat ≤ 256 := by
  rcases h.pc_cases with hpc | ⟨v, hpc⟩
  · have hadv : (s.advance i.length).pc.toNat = _ := State.advance_pc_toNat (by omega)
    rw [hpc]
    exact hadv.trans_le hlen
  · have hv : (s.jump v).pc.toNat = _ := State.jump_pc_toNat s v
    rw [hpc]
    exact hv.trans_le (by omega)

/-- An effect keeps the memory canonical. -/
theorem Effect.mem_wf {s t : State} {i : Instr} (h : Effect s i t) (hwf : s.mem.wf) : t.mem.wf := by
  rcases h.mem_cases with hmem | ⟨-, v, hmem⟩ <;> rw [hmem]
  · exact hwf
  · exact Memory.write_wf hwf s.decSp.stackAddr_lt v

/-- The effect of the instruction at `pc` keeps the invariant of a running core. -/
theorem State.Inv.effect {s t : State} {i : Instr} (h : s.Inv) (hr : s.run = .running) (hf : fetchInstr s = .ok i)
    (he : Effect s i t) : t.Inv where
  memCanonical := he.mem_wf h.memCanonical
  pcBound := he.pc_le (fetchInstr_ok hf).1
  recordClear _ := by
    rw [he.record_eq.1, he.record_eq.2]
    exact h.recordClear (by simp [hr])
  recordSet ht := absurd ht (he.run_ne_faulted hr)
  haltedPastHlt ht := by
    have hi : i = .hlt := by_contra fun hi => RunState.noConfusion (hr.symm.trans ((he.run_eq hi).symm.trans ht))
    subst hi
    obtain ⟨hp, hop⟩ := memRead_of_fetchInstr (k := 0) hf rfl
    cases he
    have hpc : (s.advance 1).halt.pc.toNat = s.pc.toNat + 1 := State.advance_pc_toNat (by omega)
    rw [hpc]
    exact ⟨by omega, hop⟩

/-- Settles O15: the answer of a step is the same stopped state, an explained fault raised, or an effect of the instruction at
`pc`, and each keeps the invariant. -/
theorem stepKeepsTheInvariant : Obligations.StepKeepsTheInvariant := by
  intro s t h hs
  by_cases hr : s.run = .running
  · rcases step_running_cases hr hs with ⟨tr, hfault, rfl⟩ | ⟨i, hf, he⟩
    · exact h.raise (hfault.recordExplained h.pcBound)
    · exact h.effect hr hf he
  · cases (step_stopped hr).symm.trans hs
    exact h

/-- Every state of a run satisfies the invariant. -/
theorem Reachable.inv {s : State} (h : Reachable s) : s.Inv := by
  induction h with
  | launched hl => exact .launched hl
  | stepped _ hs ih => exact stepKeepsTheInvariant _ _ ih hs

/-- A recorded address fault is that of address 256. -/
theorem State.Inv.faultInfo_of_address {s : State} (h : s.Inv) (hc : s.faultCause = .addressOutOfRange) :
    s.faultInfo = 256 := by
  have hrun : s.run = .faulted := by_contra fun hrun => FaultCause.noConfusion (hc.symm.trans (h.recordClear hrun).1)
  have hrec := h.recordSet hrun
  simp only [State.recordExplained, hc] at hrec
  exact BitVec.eq_of_toNat_eq hrec.1

/-- Settles O17: the invariant holds of every reachable state and bounds both. -/
theorem reachablePcAndAddressFaultBound : Obligations.ReachablePcAndAddressFaultBound :=
  fun _ h => ⟨h.inv.pcBound, h.inv.faultInfo_of_address⟩

end Sys2Proof.Machine

/-! ## The step as the decoder's reading of the bytes at `pc` (R61, R62, R64) -/

namespace Sys2Proof

/-- A decoder whose operand source and rejection are renamed by `g` fails with the renamed error and succeeds alike. -/
theorem decodeWith_mapError {ε δ : Type} (g : ε → δ) {illegal : Byte → ε} {illegal' : Byte → δ}
    {operand : Nat → Except ε Byte} {operand' : Nat → Except δ Byte} (hill : ∀ op, illegal' op = g (illegal op))
    (h1 : operand' 1 = (operand 1).mapError g) (h2 : operand' 2 = (operand 2).mapError g) (op : Byte) :
    decodeWith illegal' operand' op = (decodeWith illegal operand op).mapError g := by
  unfold decodeWith
  rw [h1, h2]
  cases formatOf op with
  | none => exact congrArg Except.error (hill op)
  | some f =>
    cases f with
    | z make => rfl
    | r make => cases operand 1 <;> rfl
    | rr make | ri make => cases operand 1 <;> cases operand 2 <;> rfl

end Sys2Proof

namespace Sys2Proof.Machine

/-- The fault that names why the bytes at `pc` are no instruction. -/
def fetchTrap (pc : Nat) : DecodeError → Trap
  | .noOpcode => .addressOutOfRange pc
  | .illegalInstruction op => .illegalInstruction op
  | .missingOperand k => .addressOutOfRange (pc + k)

/-- The bytes from `pc` on, by place. -/
theorem bytesAtPc_getElem? (s : State) (k : Nat) :
    s.bytesAtPc[k]? = if s.pc.toNat + k ≤ 255 then some (s.memRead (s.pc.toNat + k)) else none := by
  rw [State.bytesAtPc, List.getElem?_map]
  split
  · rw [List.getElem?_range (by omega), Option.map_some]
  · rw [List.getElem?_eq_none (by simp; omega), Option.map_none]

/-- The operand fetch at `pc` is the operand source of the decoder on the bytes from `pc` on. -/
theorem fetchOperand_eq_operandOf {s : State} {op : Byte} {rest : List Byte} (hb : s.bytesAtPc = op :: rest) (k : Nat) :
    fetchOperand s (k + 1) = (operandOf rest (k + 1)).mapError (fetchTrap s.pc.toNat) := by
  have hk := bytesAtPc_getElem? s (k + 1)
  rw [hb, List.getElem?_cons_succ] at hk
  obtain hp | hp : 255 < s.pc.toNat + (k + 1) ∨ s.pc.toNat + (k + 1) ≤ 255 := by omega
  · rw [if_neg (by omega)] at hk
    simp [fetchOperand_of_gt hp, operandOf, hk, Except.mapError, fetchTrap]
  · rw [if_pos hp] at hk
    simp [fetchOperand_of_le hp, operandOf, hk, Except.mapError]

/-- The fetch at `pc` is the decoder on the bytes from `pc` on. -/
theorem fetchInstr_eq_decode (s : State) :
    fetchInstr s = ((decode s.bytesAtPc).map Prod.fst).mapError (fetchTrap s.pc.toNat) := by
  have h0 := bytesAtPc_getElem? s 0
  cases hb : s.bytesAtPc with
  | nil =>
    have hp : 255 < s.pc.toNat := by simpa [hb] using h0
    exact fetchInstr_of_gt hp
  | cons op rest =>
    obtain ⟨hp, rfl⟩ : s.pc.toNat ≤ 255 ∧ s.memRead s.pc.toNat = op := by simpa [hb, eq_comm] using h0
    have hdecode := decodeWith_mapError (fetchTrap s.pc.toNat) (illegal := .illegalInstruction)
      (illegal' := .illegalInstruction) (fun _ => rfl) (fetchOperand_eq_operandOf hb 0) (fetchOperand_eq_operandOf hb 1)
    rw [fetchInstr_of_le hp, hdecode, decode]
    cases decodeWith .illegalInstruction (operandOf rest) (s.memRead s.pc.toNat) <;> rfl

/-- Bytes at `pc` that are no instruction raise the fault that names why. -/
theorem step_of_decode_error {s : State} {e : DecodeError} (hr : s.run = .running) (h : decode s.bytesAtPc = .error e) :
    step s = .next (s.raise (fetchTrap s.pc.toNat e)) :=
  step_of_fetch_error hr (by rw [fetchInstr_eq_decode, h]; rfl)

/-- Settles O9: the fetch of a running core is the decoder on the bytes from `pc` on, with its errors named as faults. -/
theorem stepExecutesTheInstructionDecodedAtPc : Obligations.StepExecutesTheInstructionDecodedAtPc := by
  intro s hr
  refine ⟨fun i rest h => step_of_fetch hr (by rw [fetchInstr_eq_decode, h]; rfl), fun op h => ?_,
    fun _ h => step_of_decode_error hr h, fun h => step_of_decode_error hr h⟩
  rw [step_of_decode_error hr h, fetchTrap, State.raise_illegal]

end Sys2Proof.Machine

/-! ## What each instruction does and leaves unchanged (R14, R75 to R97) -/

namespace Sys2Proof.Machine

/-! ### Registers and the stack pointer by the named operations -/

/-- A byte is the register it names. -/
theorem State.regOf_regByte (s : State) (r : Fin 8) : s.regOf (regByte r) = s.reg r := by
  simp [State.regOf, regByte_toNat]

theorem regByte_eq_seven {r : Fin 8} : regByte r = 7 ↔ r = 7 := by revert r; decide

section
variable (s : State)

/-- The stack pointer's decrement, as a number that wraps below 0 (D2). -/
theorem State.decSp_eq : s.decSp = s.setReg 7 (BitVec.ofNat 8 (((s.reg 7).toNat + 255) % 256)) :=
  congrArg (s.setReg 7) (byte_sub_eq _ 1)

/-- A register after the decrement: for R7 the decremented pointer (D9). -/
theorem State.decSp_reg (r : Fin 8) : s.decSp.reg r = if r = 7 then s.decSp.reg 7 else s.reg r := by
  split
  · next h => rw [h]
  · next h => exact State.decSp_reg_ne s h

theorem State.decSp_sp_toNat : (s.decSp.reg 7).toNat = ((s.reg 7).toNat + 255) % 256 := by
  simp [State.decSp_eq]

theorem State.incSp_sp_toNat : (s.incSp.reg 7).toNat = ((s.reg 7).toNat + 1) % 256 := by
  simp [State.incSp_eq]

theorem State.setReg_keepsRegs (r : Fin 8) (v : Byte) : s.keepsRegs (s.setReg r v) [r] :=
  fun _ hi => State.setReg_reg_ne s v (List.ne_of_not_mem_cons hi)

/-- The effect of POP on the registers but R7. -/
theorem State.incSp_setReg_reg_ne {r i : Fin 8} (v : Byte) (h : i ≠ 7) :
    (s.setReg r v).incSp.reg i = if i = r then v else s.reg i :=
  (State.incSp_reg_ne _ h).trans (State.setReg_reg s r i v)

/-- The effect of POP on R7: the popped byte is incremented when it went there (D9). -/
theorem State.incSp_setReg_sp (r : Fin 8) (v : Byte) :
    (s.setReg r v).incSp.reg 7 = (if r = 7 then v else s.reg 7) + 1 := by
  rw [State.incSp_sp, State.setReg_reg]
  simp only [eq_comm]

/-- A push leaves every other cell. -/
theorem State.storeTop_keepsMemBut (v : Byte) : s.keepsMemBut (s.decSp.storeTop v) s.decSp.stackAddr :=
  fun _ h => State.storeTop_memRead_ne s.decSp v h

end

/-! ### The new `pc` -/

/-- A well-formed instruction that is not a CALL without room for its return address has its effect. -/
theorem effect_of_wf {s t : State} {i : Instr} (hwf : i.wf = true) (hcall : ∀ a, i = .call a → s.pc.toNat ≤ 253)
    (h : exec i s = .next t) : Effect s i t := by
  rcases exec_cases i s with ⟨u, hu, he⟩ | ⟨b, hbad, -⟩ | ⟨r, hi, hp, -⟩
  · cases hu.symm.trans h
    exact he
  · cases hwf.symm.trans hbad
  · exact absurd (hcall _ hi) (by omega)

/-- Settles O18: each effect moves `pc` by the instruction's length, inside 9 bits, or to its target. -/
theorem pcAfterEveryInstruction : Obligations.PcAfterEveryInstruction := by
  intro s t i hwf hlen hcall h
  have hadv : (s.advance i.length).pc.toNat = s.pc.toNat + i.length := State.advance_pc_toNat (by omega)
  cases effect_of_wf hwf hcall h with
  | hlt | prn | push | pop | ldi | add | mul | cmp => exact hadv
  | ret => exact State.jump_pc_toNat s.incSp _
  | jmp r =>
    simp only [State.regOf_regByte]
    exact State.jump_pc_toNat s _
  | jeq r =>
    simp only [State.regOf_regByte]
    cases s.fl
    · exact hadv
    · exact State.jump_pc_toNat s _
  | jne r =>
    simp only [State.regOf_regByte]
    cases s.fl
    · exact State.jump_pc_toNat s _
    · exact hadv
  | call r =>
    simp only [State.regOf_regByte, regByte_eq_seven, ← State.decSp_sp_toNat]
    rw [State.jump_pc_toNat, State.decSp_reg, apply_ite BitVec.toNat]

/-! ### Each instruction completes -/

/-- Settles O20: the effect is one register write and `pc + 3`. -/
theorem addAndMulComplete : Obligations.AddAndMulComplete := fun s a b =>
  ⟨_, _, exec_add s a b, exec_mul s a b, by simp, by simp, rfl, rfl,
    s.setReg_keepsRegs a _, rfl, fun _ => rfl, rfl, ⟨rfl, rfl, rfl⟩,
    s.setReg_keepsRegs a _, rfl, fun _ => rfl, rfl, ⟨rfl, rfl, rfl⟩⟩

/-- Settles O21: the effect is one flag write and `pc + 3`. -/
theorem cmpCompletes : Obligations.CmpCompletes := fun s a b =>
  ⟨_, exec_cmp s a b, by simp, rfl, fun _ _ => rfl, fun _ => rfl, rfl, rfl, rfl, rfl⟩

/-- Settles O22: the effect is one register write and `pc + 3`. -/
theorem ldiCompletes : Obligations.LdiCompletes := fun s a imm =>
  ⟨_, exec_ldi s a imm, s.setReg_reg_same a imm, rfl, s.setReg_keepsRegs a imm, rfl, fun _ => rfl, rfl, rfl, rfl, rfl⟩

/-- Settles O23: the effect is one output event and `pc + 2`. -/
theorem prnCompletes : Obligations.PrnCompletes := fun s a =>
  ⟨_, exec_prn s a, rfl, rfl, fun _ _ => rfl, rfl, fun _ => rfl, rfl, rfl, rfl⟩

/-- Settles O24: the effect is the decrement, the store at the new pointer and `pc + 2`. -/
theorem pushCompletes : Obligations.PushCompletes := fun s a hwf =>
  ⟨_, exec_push s a, s.decSp_sp_toNat, rfl,
    (State.storeTop_memRead_same (s := s.decSp) hwf _).trans (s.decSp_reg a), rfl,
    s.setReg_keepsRegs 7 _, rfl, s.storeTop_keepsMemBut _, rfl, rfl, rfl, rfl⟩

/-- Settles O25: the effect is the load, the increment and `pc + 2`. -/
theorem popCompletes : Obligations.PopCompletes := by
  intro s a
  refine ⟨_, exec_pop s a, fun ha => ⟨?_, ?_⟩, fun ha => ?_, rfl, fun r hr => ?_, rfl, fun _ => rfl, rfl, rfl, rfl, rfl⟩
  · exact (s.incSp_setReg_reg_ne _ ha).trans (if_pos rfl)
  · rw [State.advance_reg, State.incSp_setReg_sp, if_neg ha, BitVec.toNat_add]
    rfl
  · rw [State.advance_reg, State.incSp_setReg_sp, if_pos ha, BitVec.toNat_add]
    rfl
  · obtain ⟨hra, hr7⟩ : r ≠ a ∧ r ≠ 7 := by simpa using hr
    exact (s.incSp_setReg_reg_ne _ hr7).trans (if_neg hra)

/-- Settles O26: below its limit the effect is the decrement, the store of `pc + 2` and the jump; above, the fault. -/
theorem callCompletes : Obligations.CallCompletes := by
  refine fun s a => ⟨fun hwf hp => ⟨_, exec_call s a hp, s.decSp_sp_toNat, rfl, ?_, ?_, s.setReg_keepsRegs 7 _, rfl,
    s.storeTop_keepsMemBut _, rfl, rfl, rfl, rfl⟩, fun hp => exec_call_top s a hp⟩
  · rw [State.jump_memRead, State.storeTop_memRead_same (s := s.decSp) hwf]
    exact Nat.mod_eq_of_lt (by omega)
  · rw [State.jump_pc_toNat, State.decSp_reg]
    rfl

/-- Settles O27: the effect is the increment and the jump to the byte at the old pointer. -/
theorem retCompletes : Obligations.RetCompletes := fun s =>
  ⟨_, exec_ret s, State.jump_pc_toNat s.incSp _, s.incSp_sp_toNat, s.setReg_keepsRegs 7 _, rfl, fun _ => rfl, rfl,
    rfl, rfl, rfl⟩

/-- Settles O29: the effect is `pc + 1` and the run state. -/
theorem hltCompletes : Obligations.HltCompletes := fun s =>
  ⟨_, exec_hlt s, rfl, rfl, fun _ _ => rfl, rfl, fun _ => rfl, rfl, rfl, rfl⟩

/-- A conditional jump changes `pc` only. -/
theorem branchIf_eq (cond : Bool) (r : Fin 8) (s : State) :
    branchIf cond r s = { s with pc := if cond = true then BitVec.ofNat 9 (s.reg r).toNat else s.pc + 2 } := by
  cases cond
  · rfl
  · exact s.jump_eq _

/-- JNE's condition is a clear flag. -/
theorem condNotEqual_iff (s : State) : s.condNotEqual = true ↔ s.fl = false := by
  simp [State.condNotEqual]

/-- Settles O28: a jump, and the two conditional jumps, change `pc` only. -/
theorem jumpsComplete : Obligations.JumpsComplete := by
  refine fun s a => ⟨?_, ?_, ?_⟩
  · rw [exec_jmp, State.jump_eq]
  · exact (withReg_regByte a s _).trans (congrArg _ (branchIf_eq s.condEqual a s))
  · refine (withReg_regByte a s _).trans (congrArg _ ?_)
    simp only [branchIf_eq, condNotEqual_iff]

/-- Settles O51: the wrapped pointers are those of PUSH and POP at 0x00 and 0xFF, and their effects keep the run state. -/
theorem stackPointerWraps : Obligations.StackPointerWraps := by
  refine ⟨fun s a hwf hsp ha => ?_, fun s a hsp ha => ?_, ?_, fun s t a i hi hr h => ?_⟩
  · obtain ⟨t, ht, hsp', haddr, hmem, -⟩ := pushCompletes s a hwf
    have ht7 : t.reg 7 = 0xFF := BitVec.eq_of_toNat_eq (hsp'.trans (by rw [hsp]; rfl))
    rw [haddr, ht7, if_neg ha] at hmem
    exact ⟨t, ht, ht7, hmem⟩
  · obtain ⟨t, ht, hpop, -⟩ := popCompletes s a
    obtain ⟨hreg, hsp'⟩ := hpop ha
    rw [hsp] at hreg hsp'
    exact ⟨t, ht, BitVec.eq_of_toNat_eq hsp', hreg⟩
  · obtain ⟨t, ht, hpop, -⟩ := popCompletes State.reset 0
    obtain ⟨hreg, hsp'⟩ := hpop (by decide)
    exact ⟨t, ht, hreg, BitVec.eq_of_toNat_eq hsp'⟩
  · fin_cases hi
    · cases (exec_push s a).symm.trans h
      exact hr
    · cases (exec_pop s a).symm.trans h
      exact hr
    · cases (exec_ret s).symm.trans h
      exact hr

end Sys2Proof.Machine

/-! ## PUSH, POP, CALL, JEQ and JNE as one step (R86, R87, R90, R93, R94) -/

namespace Sys2Proof.Machine

section
variable {s : State}

/-- The effect of a format R step matters up to address 254 only. -/
theorem stepsAsR_congr {e e' : Fin 8 → State} (h : s.stepsAsR e) (he : s.pc.toNat ≤ 254 → ∀ a, e a = e' a) :
    s.stepsAsR e' := by
  obtain ⟨haddr, hindex, heffect⟩ := h
  exact ⟨haddr, hindex, fun a hp ha => he hp a ▸ heffect a hp ha⟩

/-- PUSH steps as format R: decrement, then store the register. -/
theorem stepsAsR_push (h : s.atOpcode 0x45) : s.stepsAsR fun r => (s.decSp.storeTop (s.decSp.reg r)).advance 2 :=
  stepsAsR_of_withReg h rfl fun _ => rfl

/-- POP steps as format R: load the register, then increment. -/
theorem stepsAsR_pop (h : s.atOpcode 0x46) : s.stepsAsR fun r => (s.setReg r s.loadTop).incSp.advance 2 :=
  stepsAsR_of_withReg h rfl fun _ => rfl

/-- CALL steps as format R: the check of the return address, then its push and the jump. -/
theorem stepsAsR_call (h : s.atOpcode 0x50) : s.stepsAsR fun r =>
    if 255 < s.pc.toNat + 2 then s.raise (.addressOutOfRange (s.pc.toNat + 2))
    else (s.decSp.storeTop (BitVec.ofNat 8 (s.pc.toNat + 2))).jump (s.decSp.reg r) :=
  stepsAsR_of_withReg h rfl fun a => by
    simp only [apply_ite Host.Outcome.next]
    rfl

/-- A push over numbers: the pointer that wraps, and the cell there (D2). -/
theorem storeTop_decSp_eq (s : State) (v : Byte) :
    s.decSp.storeTop v =
      let sp : Byte := BitVec.ofNat 8 (((s.reg 7).toNat + 255) % 256)
      { s.setReg 7 sp with mem := s.mem.write sp.toNat v } := by
  have haddr : s.decSp.stackAddr = (s.decSp.reg 7).toNat := rfl
  rw [State.storeTop, haddr, State.decSp_eq, State.setReg_reg_same]
  rfl

/-- A register after the decrement, over numbers (D9). -/
theorem decSp_reg_eq (s : State) (r : Fin 8) :
    s.decSp.reg r = if r = 7 then BitVec.ofNat 8 (((s.reg 7).toNat + 255) % 256) else s.reg r := by
  rw [State.decSp_eq, State.setReg_reg]

end

/-- Settles O35: PUSH's format R step, over numbers. -/
theorem stepOfPush : Obligations.StepOfPush := fun s h =>
  stepsAsR_congr (stepsAsR_push h) fun _ a => by
    rw [State.advance_eq, decSp_reg_eq, storeTop_decSp_eq]
    rfl

/-- Settles O36: POP's format R step, over numbers. -/
theorem stepOfPop : Obligations.StepOfPop := fun s h =>
  stepsAsR_congr (stepsAsR_pop h) fun _ a => by
    rw [State.advance_eq, State.incSp_eq, State.setReg_reg]
    simp only [@eq_comm _ 7 a]
    rfl

/-- Settles O37: CALL's format R step, over numbers; up to address 254 its return address is outside the memory at 254 only. -/
theorem stepOfCall : Obligations.StepOfCall := fun s h =>
  stepsAsR_congr (stepsAsR_call h) fun hp a => by
    by_cases hpc : s.pc.toNat = 254
    · rw [if_pos (by omega), if_pos hpc, hpc]
      rfl
    · rw [if_neg (by omega), if_neg hpc, State.jump_eq, decSp_reg_eq, storeTop_decSp_eq]

/-- `pc + 2` in 9 bits, over numbers. -/
theorem State.pc_add_two (s : State) : s.pc + 2 = BitVec.ofNat 9 (s.pc.toNat + 2) :=
  congrArg State.pc (s.advance_eq 2)

/-- Settles O40: JEQ's format R step is the conditional jump. -/
theorem stepOfJeq : Obligations.StepOfJeq := fun s h => by
  simpa only [branchIf_eq, State.condEqual, State.pc_add_two] using
    stepsAsR_of_withReg (effect := fun a => branchIf s.condEqual a s) h rfl fun _ => rfl

/-- Settles O41: JNE's format R step is the conditional jump. -/
theorem stepOfJne : Obligations.StepOfJne := fun s h => by
  simpa only [branchIf_eq, condNotEqual_iff, State.pc_add_two] using
    stepsAsR_of_withReg (effect := fun a => branchIf s.condNotEqual a s) h rfl fun _ => rfl

/-! ### PUSH and the instruction after it (R40, R88) -/

section
variable {s : State} {a : Fin 8} {v : Byte}

/-- The state after a PUSH of the byte `v`. -/
def State.pushed (s : State) (v : Byte) : State := (s.decSp.storeTop v).advance 2

theorem step_push (h : s.atOpcode 0x45) (hp : s.pc.toNat ≤ 254) (ha : s.operand 1 = a.val) :
    step s = .next (s.pushed (s.decSp.reg a)) :=
  (stepsAsR_push h).2.2 a hp ha

theorem pushed_pc (hp : s.pc.toNat ≤ 254) : (s.pushed v).pc.toNat = s.pc.toNat + 2 :=
  State.advance_pc_toNat (s := s.decSp.storeTop v) (by rw [State.storeTop_pc, State.decSp_pc]; omega)

theorem pushed_memRead_ne {addr : Nat} (h : addr ≠ s.decSp.stackAddr) :
    (s.pushed v).memRead addr = s.memRead addr :=
  s.storeTop_keepsMemBut v addr h

theorem pushed_memRead_same (hwf : s.mem.wf) : (s.pushed v).memRead s.decSp.stackAddr = v :=
  State.storeTop_memRead_same (s := s.decSp) hwf v

/-- After a PUSH the core stands at the byte after it, as the PUSH left that byte. -/
theorem pushed_atOpcode {op : Byte} (h : s.atOpcode 0x45) (hp : s.pc.toNat ≤ 253)
    (hop : (s.pushed v).memRead (s.pc.toNat + 2) = op) : (s.pushed v).atOpcode op := by
  have hpc : (s.pushed v).pc.toNat = s.pc.toNat + 2 := pushed_pc (by omega)
  exact ⟨h.1, by omega, hpc ▸ hop⟩

/-- A POP right after a PUSH, whose bytes the PUSH leaves alone, pops the pushed byte. -/
theorem step_pushed_pop {b : Fin 8} (hwf : s.mem.wf) (h : s.atOpcode 0x45) (hp : s.pc.toNat ≤ 252)
    (hop : s.memRead (s.pc.toNat + 2) = 0x46) (hb : s.operand 3 = b.val)
    (h2 : s.decSp.stackAddr ≠ s.pc.toNat + 2) (h3 : s.decSp.stackAddr ≠ s.pc.toNat + 3) :
    step (s.pushed v) = .next (((s.pushed v).setReg b v).incSp.advance 2) := by
  have hpc : (s.pushed v).pc.toNat = s.pc.toNat + 2 := pushed_pc (by omega)
  have hat : (s.pushed v).atOpcode 0x46 := pushed_atOpcode h (by omega) ((pushed_memRead_ne h2.symm).trans hop)
  have hb' : (s.pushed v).operand 1 = b.val := by
    rw [State.operand, hpc, pushed_memRead_ne h3.symm]
    exact hb
  have htop : (s.pushed v).loadTop = v := pushed_memRead_same hwf
  have hstep := (stepsAsR_pop hat).2.2 b (by omega) hb'
  rwa [htop] at hstep

/-- The registers but R7 after PUSH and POP: the pushed byte is in the POP's register. -/
theorem pushed_popped_reg_ne {b r : Fin 8} (hr : r ≠ 7) :
    ((s.pushed v).setReg b v).incSp.reg r = if r = b then v else s.reg r := by
  have hpushed : (s.pushed v).reg r = s.reg r := s.decSp_reg_ne hr
  rw [State.incSp_setReg_reg_ne _ _ hr, hpushed]

/-- R7 after PUSH and POP: back at its value, unless the POP went there. -/
theorem pushed_popped_sp {b : Fin 8} :
    ((s.pushed v).setReg b v).incSp.reg 7 = if b = 7 then v + 1 else s.reg 7 := by
  have hpushed : (s.pushed v).reg 7 = s.reg 7 - 1 := s.decSp_sp
  rw [State.incSp_setReg_sp, hpushed, apply_ite (· + 1), BitVec.sub_add_cancel]

end

/-- Settles O48: the POP stands after the PUSH and pops what was pushed; the two moves of the pointer cancel. -/
theorem pushThenPopRoundTrip : Obligations.PushThenPopRoundTrip := by
  intro s a b hwf h hp ha hop hb h2 h3
  have hpc : (s.pushed (s.decSp.reg a)).pc.toNat = s.pc.toNat + 2 := pushed_pc (by omega)
  refine ⟨_, _, step_push h (by omega) ha, step_pushed_pop hwf h hp hop hb h2 h3, ?_, fun r hr => ?_,
    fun _ hne => pushed_memRead_ne hne, rfl, rfl, ⟨rfl, rfl, rfl⟩, fun ha7 hb7 => ⟨?_, ?_⟩,
    fun ha7 hb7 => ⟨?_, ?_⟩, fun ha7 hb7 => ?_, fun ha7 hb7 => ?_⟩
  · rw [State.advance_pc_toNat (by rw [State.incSp_pc, State.setReg_pc]; omega), State.incSp_pc, State.setReg_pc, hpc]
  · obtain ⟨hrb, hr7⟩ : r ≠ b ∧ r ≠ 7 := by simpa using hr
    rw [State.advance_reg, pushed_popped_reg_ne hr7, if_neg hrb]
  · rw [State.advance_reg, pushed_popped_reg_ne hb7, if_pos rfl, State.decSp_reg_ne s ha7]
  · rw [State.advance_reg, pushed_popped_sp, if_neg hb7]
  · rw [State.advance_reg, pushed_popped_reg_ne hb7, if_pos rfl, ha7, State.decSp_sp]
  · rw [State.advance_reg, pushed_popped_sp, if_neg hb7]
  · rw [State.advance_reg, pushed_popped_sp, if_pos hb7, State.decSp_reg_ne s ha7]
  · rw [State.advance_reg, pushed_popped_sp, if_pos hb7, ha7, State.decSp_sp, BitVec.sub_add_cancel]

/-- Settles O50: the core stands at the pushed byte, which is an opcode of its own. -/
theorem pushedByteIsTheNextOpcode : Obligations.PushedByteIsTheNextOpcode := by
  intro s a hwf h hp ha ha7 haddr
  have hstep := step_push h (by omega) ha
  rw [State.decSp_reg_ne s ha7] at hstep
  have hpc : (s.pushed (s.reg a)).pc.toNat = s.pc.toNat + 2 := pushed_pc (by omega)
  have hat : (s.pushed (s.reg a)).atOpcode (s.reg a) :=
    pushed_atOpcode h hp (haddr ▸ pushed_memRead_same hwf)
  refine ⟨_, hstep, hat, fun hill => ?_, fun hhlt => ⟨_, step_hlt (hhlt ▸ hat), rfl, ?_⟩⟩
  · obtain ⟨hr, hle, hop⟩ := hat
    simpa only [hop] using step_illegal hr hle (hop.symm ▸ hill)
  · exact (State.advance_pc_toNat (n := 1) (by omega)).trans (congrArg (· + 1) hpc)

end Sys2Proof.Machine

/-! ## Which steps write a register (R11, R78, R85) -/

namespace Sys2Proof.Machine

/-- The opcodes whose first operand is their destination register. -/
abbrev destinationOpcodes : List Byte := [0x82, 0xA0, 0xA2, 0x46]

/-- The opcodes that move the stack pointer. -/
abbrev stackOpcodes : List Byte := [0x45, 0x46, 0x50, 0x11]

/-- A register that an effect changes is the instruction's destination, or R7 in a stack instruction. -/
theorem Effect.reg_cases {s t : State} {i : Instr} (h : Effect s i t) {r : Fin 8} (hne : t.reg r ≠ s.reg r) :
    (∃ op ∈ destinationOpcodes, (encode i)[0]? = some op ∧ (encode i)[1]? = some (regByte r)) ∨
      ∃ op ∈ stackOpcodes, (encode i)[0]? = some op ∧ r = 7 := by
  have hset {q v} (hq : (s.setReg q v).reg r ≠ s.reg r) : r = q := by_contra fun hrq => hq (s.setReg_reg_ne v hrq)
  cases h with
  | ldi q | add q | mul q =>
    cases hset hne
    exact .inl ⟨_, by decide, rfl, rfl⟩
  | pop q =>
    by_cases hr : r = 7
    · exact .inr ⟨_, by decide, rfl, hr⟩
    · have hrq : r = q := by_contra fun hrq => hne ((s.incSp_setReg_reg_ne _ hr).trans (if_neg hrq))
      cases hrq
      exact .inl ⟨_, by decide, rfl, rfl⟩
  | push | call | ret => exact .inr ⟨_, by decide, rfl, hset hne⟩
  | jeq q | jne q => exact absurd (by split <;> rfl) hne
  | prn | cmp | jmp | hlt => exact absurd rfl hne

/-- A core at one of four opcodes. -/
theorem atOpcode_of_mem {s : State} {op a b c d : Byte} (hop : op ∈ [a, b, c, d]) (h : s.atOpcode op) :
    s.atOpcode a ∨ s.atOpcode b ∨ s.atOpcode c ∨ s.atOpcode d := by
  simp only [List.mem_cons, List.not_mem_nil, or_false] at hop
  obtain rfl | rfl | rfl | rfl := hop
  · exact .inl h
  · exact .inr (.inl h)
  · exact .inr (.inr (.inl h))
  · exact .inr (.inr (.inr h))

/-- Settles O47: only an effect changes a register, and the instruction's bytes stand at `pc`. -/
theorem registersChangeOnlyByTheirWriters : Obligations.RegistersChangeOnlyByTheirWriters := by
  intro s t r h hne
  rcases step_next_cases h with ⟨-, rfl⟩ | ⟨-, tr, -, rfl⟩ | ⟨hr, i, hf, hx⟩
  · exact absurd rfl hne
  · exact absurd rfl hne
  · rcases exec_next_cases hx with he | ⟨tr, rfl⟩
    · have hat {op} (h0 : (encode i)[0]? = some op) : s.atOpcode op := ⟨hr, memRead_of_fetchInstr hf h0⟩
      rcases he.reg_cases hne with ⟨op, hop, h0, h1⟩ | ⟨op, hop, h0, h7⟩
      · obtain ⟨-, hreg⟩ := memRead_of_fetchInstr hf h1
        exact .inl ⟨atOpcode_of_mem hop (hat h0), (congrArg BitVec.toNat hreg).trans (regByte_toNat r)⟩
      · exact .inr ⟨atOpcode_of_mem hop (hat h0), h7⟩
    · exact absurd rfl hne

end Sys2Proof.Machine

/-! ## The output (R20, R83) -/

namespace Sys2Proof.Machine

/-- The state with another output in place of its own. -/
def State.withOutput (s : State) (out : List Byte) : State := { s with out := out }

@[simp] theorem State.withOutput_pc (s : State) (out : List Byte) : (s.withOutput out).pc = s.pc := rfl

/-- When the first result, of a state with output `out`, is a next state, it adds at most one value to `out`, one only if `emits`,
and the second is that state with the same values added to `other`. -/
def ExtendsOutput (out other : List Byte) (emits : Prop) (o o' : Result) : Prop :=
  ∀ t, o = .next t → ∃ new, t.out = out ++ new ∧ new.length ≤ 1 ∧ (new ≠ [] → emits) ∧
    o' = .next (t.withOutput (other ++ new))

section
variable {other : List Byte} {emits : Prop}

theorem ExtendsOutput.same (t : State) :
    ExtendsOutput t.out other emits (.next t) (.next (t.withOutput other)) := by
  rintro _ ⟨⟩
  exact ⟨[], by simp, by simp, by simp, by simp⟩

theorem ExtendsOutput.emit (t : State) (v : Byte) (h : emits) :
    ExtendsOutput t.out other emits (.next (t.emit v)) (.next (t.withOutput (other ++ [v]))) := by
  rintro _ ⟨⟩
  exact ⟨[v], rfl, by simp, fun _ => h, rfl⟩

theorem ExtendsOutput.mono {out : List Byte} {emits' : Prop} {o o' : Result} (h : ExtendsOutput out other emits o o')
    (himp : emits → emits') : ExtendsOutput out other emits' o o' := fun t ht =>
  (h t ht).imp fun _ ⟨hout, hlen, hemits, ho⟩ => ⟨hout, hlen, himp ∘ hemits, ho⟩

end

/-- No meaning reads the output, and only that of PRN writes it. -/
theorem exec_withOutput (i : Instr) (s : State) (other : List Byte) :
    ExtendsOutput s.out other (∃ a, i = .prn a) (exec i s) (exec i (s.withOutput other)) := by
  have one {emits : Prop} (a : Byte) {e e' : Fin 8 → Result} (he : ∀ r, ExtendsOutput s.out other emits (e r) (e' r)) :
      ExtendsOutput s.out other emits (withReg a s e) (withReg a (s.withOutput other) e') :=
    withReg_rel (fun tr => .same (s.raise tr)) a he
  have branch {emits : Prop} (cond : Bool) (r : Fin 8) : ExtendsOutput s.out other emits (.next (branchIf cond r s))
      (.next (branchIf cond r (s.withOutput other))) := by
    cases cond
    · exact .same (s.advance 2)
    · exact .same (s.jump (s.reg r))
  cases i with
  | prn a => exact one a fun r => .emit (s.advance 2) (s.reg r) ⟨a, rfl⟩
  | ldi a imm => exact one a fun r => .same ((s.setReg r imm).advance 3)
  | mul a b => exact one a fun r => one b fun q => .same ((alu .mul r q s).advance 3)
  | add a b => exact one a fun r => one b fun q => .same ((alu .add r q s).advance 3)
  | cmp a b => exact one a fun r => one b fun q => .same ((alu .cmp r q s).advance 3)
  | push a => exact one a fun r => .same ((s.decSp.storeTop (s.decSp.reg r)).advance 2)
  | pop a => exact one a fun r => .same ((s.setReg r s.loadTop).incSp.advance 2)
  | jmp a => exact one a fun r => .same (s.jump (s.reg r))
  | ret => exact .same (s.incSp.jump s.loadTop)
  | hlt => exact .same (s.advance 1).halt
  | call a =>
    refine one a fun r => ?_
    by_cases hp : Config.lastAddress < s.pc.toNat + 2
    · simp only [State.withOutput_pc, hp, if_true]
      exact .same (s.raise _)
    · simp only [State.withOutput_pc, hp, if_false]
      exact .same ((s.decSp.storeTop _).jump (s.decSp.reg r))
  | jeq a => exact one a fun r => branch s.condEqual r
  | jne a => exact one a fun r => branch s.condNotEqual r

/-- The output before a step makes no difference to anything but the output after it. -/
theorem step_withOutput (s : State) (other : List Byte) :
    ExtendsOutput s.out other (s.atOpcode 0x47) (step s) (step (s.withOutput other)) := by
  have hfetch : fetchInstr (s.withOutput other) = fetchInstr s := rfl
  by_cases hr : s.run = .running
  · have hr' : (s.withOutput other).run = .running := hr
    rcases step_cases hr with ⟨tr, hf, hs⟩ | ⟨i, hf, hs⟩
    · rw [hs, step_of_fetch_error hr' (hfetch.trans hf)]
      exact .same (s.raise tr)
    · rw [hs, step_of_fetch hr' (hfetch.trans hf)]
      refine (exec_withOutput i s other).mono ?_
      rintro ⟨a, rfl⟩
      exact atOpcode_of_fetchInstr hr hf rfl
  · rw [step_stopped hr, step_stopped (s := s.withOutput other) hr]
    exact .same s

/-- Settles O44: every meaning answers the same state up to the output, to which only PRN's adds a value. -/
theorem outputIsAppendedByPrnAndNeverRead : Obligations.OutputIsAppendedByPrnAndNeverRead :=
  fun s t other h => step_withOutput s other t h

/-! ### The text determines the values -/

/-- No digit is a line feed. -/
theorem newline_not_mem_decimalText (v : Byte) : '\n' ∉ decimalText v := fun h =>
  absurd ((decimalText_isNumeral v).mem_bounds _ h).1 (by decide)

/-- The digits of a byte determine it. -/
theorem decimalText_injective : Function.Injective decimalText := fun v w h =>
  BitVec.eq_of_toNat_eq <| by
    rw [← (decimalText_isNumeral v).foldl_eq, h, (decimalText_isNumeral w).foldl_eq]

/-- The first line of a text, and the text after it, are determined. -/
theorem line_inj {l l' r r' : List Char} (hl : '\n' ∉ l) (hl' : '\n' ∉ l') (h : l ++ '\n' :: r = l' ++ '\n' :: r') :
    l = l' ∧ r = r' := by
  induction l generalizing l' with
  | nil =>
    cases l' with
    | nil => exact ⟨rfl, (List.cons.inj h).2⟩
    | cons c' l' => exact absurd (List.cons.inj h).1 (List.ne_of_not_mem_cons hl')
  | cons c l ih =>
    cases l' with
    | nil => exact absurd (List.cons.inj h).1.symm (List.ne_of_not_mem_cons hl)
    | cons c' l' =>
      obtain ⟨rfl, htail⟩ := List.cons.inj h
      obtain ⟨rfl, hr⟩ := ih (List.not_mem_of_not_mem_cons hl) (List.not_mem_of_not_mem_cons hl') htail
      exact ⟨rfl, hr⟩

/-- Settles O53: the first line determines the first value, and the lines after it the others. -/
theorem outputTextDeterminesTheValues : Obligations.OutputTextDeterminesTheValues := by
  intro xs
  induction xs with
  | nil =>
    rintro (_ | ⟨y, ys⟩) h
    · rfl
    · simp [outText] at h
  | cons x xs ih =>
    rintro (_ | ⟨y, ys⟩) h
    · simp [outText] at h
    · obtain ⟨hline, hrest⟩ := line_inj (newline_not_mem_decimalText x) (newline_not_mem_decimalText y) h
      rw [decimalText_injective hline, ih ys hrest]

end Sys2Proof.Machine

/-! ## The memory list is canonical (R21) -/

namespace Sys2Proof.Machine

/-- A listed cell reads as its byte. -/
theorem Memory.read_of_mem {m : Memory} (hm : m.Pairwise fun c d => c.1 < d.1) {c : Host.Cell} (hc : c ∈ m) :
    m.read c.1 = c.2 := by
  induction m with
  | nil => cases hc
  | cons d m ih =>
    obtain ⟨hd, hm⟩ := List.pairwise_cons.mp hm
    obtain rfl | hc := List.mem_cons.mp hc
    · exact if_pos rfl
    · exact (if_neg (hd c hc).ne).trans (ih hm hc)

/-- A read that is not the reset value comes from a listed cell. -/
theorem Memory.mem_of_read_ne {m : Memory} {addr : Nat} (h : m.read addr ≠ 0) : (addr, m.read addr) ∈ m := by
  induction m with
  | nil => exact absurd rfl h
  | cons d m ih =>
    obtain ⟨k, w⟩ := d
    by_cases hk : k = addr
    · subst hk
      simp [Memory.read]
    · simp only [Memory.read, hk, if_false] at h ⊢
      exact List.mem_cons_of_mem _ (ih h)

/-- A memory in canonical form lists just the cells that do not read as the reset value. -/
theorem Memory.mem_iff {m : Memory} (hm : m.wf) (c : Host.Cell) :
    c ∈ m ↔ c.1 < 256 ∧ c.2 ≠ 0 ∧ m.read c.1 = c.2 := by
  obtain ⟨hp, hcells⟩ := hm
  refine ⟨fun hc => ⟨(hcells c hc).1, (hcells c hc).2, Memory.read_of_mem hp hc⟩, fun ⟨_, hne, hread⟩ => ?_⟩
  have hmem := Memory.mem_of_read_ne (hread ▸ hne : m.read c.1 ≠ 0)
  rwa [hread] at hmem

/-- Settles O46: equal reads mean the same listed cells, and their addresses rise in both lists. -/
theorem equalReadsMeanEqualMemories : Obligations.EqualReadsMeanEqualMemories := by
  intro m n hm hn hread
  have hirrefl : Std.Irrefl fun c d : Host.Cell => c.1 < d.1 := ⟨fun c => lt_irrefl c.1⟩
  have hantisymm : Std.Antisymm fun c d : Host.Cell => c.1 < d.1 := ⟨fun _ _ h h' => absurd h' h.asymm⟩
  refine hm.1.eq_of_mem_iff hn.1 fun c => ?_
  rw [Memory.mem_iff hm, Memory.mem_iff hn]
  exact and_congr_right fun hlt => by rw [hread c.1 (Nat.le_of_lt_succ hlt)]

end Sys2Proof.Machine
